-- ==== Sys2Proof/Word.lean ====
section
/-! DEFINITION. The two bit-vector widths every rule of the spec is written in: the 32-bit codeword
(30_encoding.md R45) and the 8-bit character or output byte (R45, 20_memory.md R36). -/

namespace Sys2Proof

/-- A 32-bit codeword or operand word (R6 CW_W, R45). -/
abbrev Word := BitVec 32

/-- An 8-bit character code, port value or output byte (R7 CHAR_W, R36). -/
abbrev Byte := BitVec 8

end Sys2Proof
end

