-- ==== Sys2Proof/Config.lean ====
section
/-! DEFINITION. The block's hard-wired constants (10_state.md R21, 00_scope.md R6) and the one parameter
the spec leaves open, TEXT_LEN_MAX (00_scope.md R7, 92_eei_decisions.md D6). The port widths of R7 are taken
at their defaults (log 2). -/

namespace Sys2Proof.Config

/-- GEN, the generator constant of BCHCHK (R21, R81). -/
def gen : Word := 0xED200000#32

/-- IDLE, the reserved idle codeword (R21, R49). -/
def idle : Word := 0x7A89C197#32

/-- INV, the phase inversion mask (R21, R136). -/
def inv : Word := 0xFFFFFFFF#32

/-- MSGFLAG, the type flag of a message codeword (R21, R104). -/
def msgFlag : Word := 0x80000000#32

/-- ADDR_MAX, the largest legal address (R21, R71). -/
def addrMax : Nat := 0x1FFFFF

/-- TEXT_MAX, the number of characters a transaction uses at most (R21, R144). -/
def textMax : Nat := 40

/-- How far TEXT_LEN_MAX lies above its lower bound 45. The spec leaves TEXT_LEN_MAX OPEN (D6), so this
constant has no body: nothing can be proved that depends on its value (log 3). -/
opaque textLenMargin : Nat

/-- TEXT_LEN_MAX, the largest text length a host can present: any number of at least 45 (R7, R15). -/
def textLenMax : Nat := textLenMargin + 45

end Sys2Proof.Config
end

