-- ==== Sys2Proof/Syntax.lean ====
section
/-! DEFINITION. The whole syntax: one constructor per row of spec/opcode_table.json, in the table's order.
The block fetches no instructions (10_state.md R14); a constructor is one named operation of 30_encoding.md R60
with its operands, or one value row of R64 (a codeword format, an enumeration value, a symbol, a nibble).
Operands that the table names under `apart` (R64) are carried by the constructor, except the slot array B,
which stands in State (log 5). -/

namespace Sys2Proof

/-- One row of the opcode table with its operands. -/
inductive Instr where
  /-- ENCODE (R145): the whole request, in the order of R59; `text` holds `REQ.text[0..L-1]`, so L is its length. -/
  | encode (address : BitVec 32) (functionCode : BitVec 8) (batch2Policy : BitVec 8) (invertPhase : Bool) (text : List Byte)
  /-- VALIDATE (R70). -/
  | validate (address : BitVec 32) (functionCode : BitVec 8) (batch2Policy : BitVec 8)
  /-- TRUNCATE (R144): the text length L, 8 bits as the table's format LEN has it. -/
  | truncate (len : BitVec 8)
  /-- BCHCHK (R81): the 32-bit operand v. -/
  | bchchk (v : Word)
  /-- EVENPAR (R84): the 32-bit operand u. -/
  | evenpar (u : Word)
  /-- BCHENC (R85): the 32-bit operand v. -/
  | bchenc (v : Word)
  /-- ADDRCW (R91): address and function code at their port widths, so that an unvalidated operand (R96) can be written. -/
  | addrcw (address : BitVec 32) (functionCode : BitVec 8)
  /-- CHARNIB (R101): one character code. -/
  | charnib (c : Byte)
  /-- REV4 (R103): one 4-bit value. -/
  | rev4 (x : BitVec 4)
  /-- MSGCW (R104): the characters of one group. -/
  | msgcw (group : List Byte)
  /-- MSGENC (R106): the characters of the text. -/
  | msgenc (text : List Byte)
  /-- BATCHINIT (R116): no operand. -/
  | batchinit
  /-- PLACE (R117): absolute slot index and codeword. -/
  | place (k : BitVec 6) (v : Word)
  /-- ASSEMBLE (R119): address slot, address codeword, message codewords; m is the length of `mcw`. -/
  | assemble (aslot : BitVec 4) (acw : Word) (mcw : List Word)
  /-- DISPOSE (R125): highest used slot and policy; the slot array B stands in State. -/
  | dispose (highest : BitVec 5) (batch2Policy : BitVec 8)
  /-- INVERT (R136): the one-bit selection; the slot array B stands in State. -/
  | invert (invertPhase : Bool)
  /-- SERIALIZE (R139): one codeword. -/
  | serialize (v : Word)
  /-- ADDR_CW (R47): an address codeword before inversion, field by field; bit 31 is 0. -/
  | cwAddr (addrHi : BitVec 18) (fc : BitVec 2) (check : BitVec 10) (parity : BitVec 1)
  /-- MSG_CW (R48): a message codeword before inversion, field by field; bit 31 is 1. -/
  | cwMsg (n0 n1 n2 n3 n4 : BitVec 4) (check : BitVec 10) (parity : BitVec 1)
  /-- IDLE_CW (R49): the idle codeword. -/
  | cwIdle
  /-- IDLE_CW_INVERTED (R50): the idle codeword after inversion. -/
  | cwIdleInverted
  /-- ADDR_CW_INVERTED (R50): an address codeword after inversion, its fields as they stand in the word
  (each the complement of the field of R47); bit 31 is 1. -/
  | cwAddrInverted (addrHi : BitVec 18) (fc : BitVec 2) (check : BitVec 10) (parity : BitVec 1)
  /-- MSG_CW_INVERTED (R50): a message codeword after inversion, its fields as they stand in the word; bit 31 is 0. -/
  | cwMsgInverted (n0 n1 n2 n3 n4 : BitVec 4) (check : BitVec 10) (parity : BitVec 1)
  /-- FC_TIMESYNC (R56). -/
  | fcTimesync
  /-- FC_DOWN (R56). -/
  | fcDown
  /-- FC_ILLEGAL_2 (R56). -/
  | fcIllegal2
  /-- FC_UP (R56). -/
  | fcUp
  /-- FC_ILLEGAL_4_TO_255 (R56): any value of 4 or more. -/
  | fcIllegal4To255 (value : BitVec 8)
  /-- POL_TRUNCATE (R57). -/
  | polTruncate
  /-- POL_COPYBATCH1 (R57). -/
  | polCopybatch1
  /-- POL_LEAVEIDLE (R57). -/
  | polLeaveidle
  /-- POL_ILLEGAL_3_TO_255 (R57): any value of 3 or more. -/
  | polIllegal3To255 (value : BitVec 8)
  /-- ST_OK (R18). -/
  | stOk
  /-- ST_INVALID_ADDRESS (R18). -/
  | stInvalidAddress
  /-- ST_INVALID_FUNCTION_CODE (R18). -/
  | stInvalidFunctionCode
  /-- ST_INVALID_BATCH2_POLICY (R18). -/
  | stInvalidBatch2Policy
  /-- BATCHCOUNT_1 (R19). -/
  | batchcount1
  /-- BATCHCOUNT_2 (R19). -/
  | batchcount2
  /-- INVERT_FALSE (R16). -/
  | invertFalse
  /-- INVERT_TRUE (R16). -/
  | invertTrue
  /-- SYM_0 (R55): character code 0x30. -/
  | sym0
  /-- SYM_1 (R55): character code 0x31. -/
  | sym1
  /-- SYM_2 (R55): character code 0x32. -/
  | sym2
  /-- SYM_3 (R55): character code 0x33. -/
  | sym3
  /-- SYM_4 (R55): character code 0x34. -/
  | sym4
  /-- SYM_5 (R55): character code 0x35. -/
  | sym5
  /-- SYM_6 (R55): character code 0x36. -/
  | sym6
  /-- SYM_7 (R55): character code 0x37. -/
  | sym7
  /-- SYM_8 (R55): character code 0x38. -/
  | sym8
  /-- SYM_9 (R55): character code 0x39. -/
  | sym9
  /-- SYM_STAR (R55): character code 0x2A. -/
  | symStar
  /-- SYM_U (R55): character code 0x55. -/
  | symU
  /-- SYM_SPACE (R55): character code 0x20. -/
  | symSpace
  /-- SYM_MINUS (R55): character code 0x2D. -/
  | symMinus
  /-- SYM_LPAREN (R55): character code 0x28. -/
  | symLparen
  /-- SYM_RPAREN (R55): character code 0x29. -/
  | symRparen
  /-- SYM_DEFAULT (R102): any of the 240 codes not listed in R55. -/
  | symDefault (c : Byte)
  /-- NIB_0 (R53): the nibble 0x0. -/
  | nib0
  /-- NIB_8 (R53): the nibble 0x8. -/
  | nib8
  /-- NIB_4 (R53): the nibble 0x4. -/
  | nib4
  /-- NIB_C (R53): the nibble 0xC. -/
  | nibC
  /-- NIB_2 (R53): the nibble 0x2. -/
  | nib2
  /-- NIB_A (R53): the nibble 0xA. -/
  | nibA
  /-- NIB_6 (R53): the nibble 0x6. -/
  | nib6
  /-- NIB_E (R53): the nibble 0xE. -/
  | nibE
  /-- NIB_1 (R53): the nibble 0x1. -/
  | nib1
  /-- NIB_9 (R53): the nibble 0x9. -/
  | nib9
  /-- NIB_5 (R53): the nibble 0x5. -/
  | nib5
  /-- NIB_D (R53): the nibble 0xD. -/
  | nibD
  /-- NIB_3 (R53): the nibble 0x3. -/
  | nib3
  /-- NIB_B (R53): the nibble 0xB. -/
  | nibB
  /-- NIB_7 (R53): the nibble 0x7. -/
  | nib7
  /-- NIB_F (R53): the nibble 0xF. -/
  | nibF
  deriving DecidableEq, Repr

end Sys2Proof
end

