-- ==== Sys2Proof/WellFormed.lean ====
section
/-! DEFINITION. Which terms of Instr are instructions of the machine: those whose operands the table's encoding
admits (field widths, fixed bits, ranges of a value row). What a unit's CONTRACT admits is the narrower check
`inContract` of Machine/Operands.lean. -/

namespace Sys2Proof

/-- The 16 character codes listed in R55. -/
def listedCodes : List Byte :=
  [0x30#8, 0x31#8, 0x32#8, 0x33#8, 0x34#8, 0x35#8, 0x36#8, 0x37#8, 0x38#8, 0x39#8,
   0x2A#8, 0x55#8, 0x20#8, 0x2D#8, 0x28#8, 0x29#8]

/-- The 32 bits of an address codeword from its fields, with the type flag `t` in bit 31 (R47, R50). -/
def addrBits (t : BitVec 1) (addrHi : BitVec 18) (fc : BitVec 2) (check : BitVec 10) (parity : BitVec 1) : Word :=
  t ++ addrHi ++ fc ++ check ++ parity

/-- The 32 bits of a message codeword from its fields, with the type flag `t` in bit 31 (R48, R50). -/
def msgBits (t : BitVec 1) (n0 n1 n2 n3 n4 : BitVec 4) (check : BitVec 10) (parity : BitVec 1) : Word :=
  t ++ n0 ++ n1 ++ n2 ++ n3 ++ n4 ++ check ++ parity

/-- The operands are ones the row's encoding can carry. -/
def wellFormed : Instr → Bool
  | .encode _ _ _ _ text => text.length ≤ 255
  | .validate _ _ _ => true
  | .truncate _ => true
  | .bchchk v => v &&& 0x7FF#32 = 0#32
  | .evenpar u => u &&& 1#32 = 0#32
  | .bchenc v => v &&& 0x7FF#32 = 0#32
  | .addrcw address functionCode => address.toNat < 0x200000 && functionCode.toNat < 4
  | .charnib _ => true
  | .rev4 _ => true
  | .msgcw group => 1 ≤ group.length && group.length ≤ 5
  | .msgenc text => text.length ≤ 63
  | .batchinit => true
  | .place _ _ => true
  | .assemble _ _ mcw => mcw.length ≤ 15
  | .dispose _ _ => true
  | .invert _ => true
  | .serialize _ => true
  | .cwAddr addrHi fc check parity => addrBits 0#1 addrHi fc check parity ≠ Config.idle
  | .cwMsg _ _ _ _ _ _ _ => true
  | .cwIdle => true
  | .cwIdleInverted => true
  | .cwAddrInverted addrHi fc check parity => addrBits 1#1 addrHi fc check parity ≠ ~~~Config.idle
  | .cwMsgInverted _ _ _ _ _ _ _ => true
  | .fcTimesync | .fcDown | .fcIllegal2 | .fcUp => true
  | .fcIllegal4To255 v => 4 ≤ v.toNat
  | .polTruncate | .polCopybatch1 | .polLeaveidle => true
  | .polIllegal3To255 v => 3 ≤ v.toNat
  | .stOk | .stInvalidAddress | .stInvalidFunctionCode | .stInvalidBatch2Policy => true
  | .batchcount1 | .batchcount2 => true
  | .invertFalse | .invertTrue => true
  | .sym0 | .sym1 | .sym2 | .sym3 | .sym4 | .sym5 | .sym6 | .sym7 | .sym8 | .sym9 => true
  | .symStar | .symU | .symSpace | .symMinus | .symLparen | .symRparen => true
  | .symDefault c => !listedCodes.contains c
  | .nib0 | .nib8 | .nib4 | .nibC | .nib2 | .nibA | .nib6 | .nibE => true
  | .nib1 | .nib9 | .nib5 | .nibD | .nib3 | .nibB | .nib7 | .nibF => true

end Sys2Proof
end

