-- ==== Sys2Proof/Decode.lean ====
section
/-! DEFINITION. From the bits of an operand word to an instruction and back. The spec has no opcode: "each is
selected by its place in the fixed sequence" (30_encoding.md R60), and a value row's pattern "is the bit pattern of
the value itself" (R64). So the decoder is given the PLACE the bits stand at (`Selector`: the operation that reads
them, or the kind of value they are) beside the bytes (log 4). Words are laid out most significant byte first and
right-aligned in whole bytes, the bits above the row's width zero (log 6); operands that the table names under
`apart` follow, in the order of R59. -/

namespace Sys2Proof

/-- The place the bits stand at: one of the 17 operations of R60, or one of the value formats of R64
(a codeword before inversion, a codeword after inversion, FC8, POL8, ST2, BC2, B1, CHAR8, NIB4). -/
inductive Selector where
  | encode | validate | truncate | bchchk | evenpar | bchenc | addrcw | charnib | rev4 | msgcw | msgenc
  | batchinit | place | assemble | dispose | invert | serialize
  | cw | cwInverted | fc8 | pol8 | st2 | bc2 | b1 | char8 | nib4
  deriving DecidableEq, Repr

/-- Why bytes are no instruction at their place. -/
inductive DecodeError where
  /-- Fewer bytes than the row needs. -/
  | truncated
  /-- A bit above the row's width is set. -/
  | paddingBits
  /-- A bit the row's pattern fixes has the other value. -/
  | fixedBits
  /-- The count of absent characters of a MSGCW group is above 4. -/
  | groupLength
  /-- An absent character of a MSGCW group is not zero. -/
  | absentCharacter
  /-- The value is in no row of its format (a batch count of 0 or 3, R19). -/
  | noRow
  deriving DecidableEq, Repr

/-- The `k` low bytes of `n`, most significant first (R36's order). -/
def beBytes : Nat → Nat → List Byte
  | 0, _ => []
  | k + 1, n => BitVec.ofNat 8 (n / 256 ^ k) :: beBytes k n

/-- The number a byte list spells, most significant byte first. -/
def beValue (bs : List Byte) : Nat :=
  bs.foldl (fun acc b => acc * 256 + b.toNat) 0

/-- What decoding answers: the instruction and the bytes after it, or why there is none. -/
abbrev DecodeResult := Except DecodeError (Instr × List Byte)

/-- Reads `k` bytes as a word of `width` bits, the bits above it being zero. -/
def withWord (k width : Nat) (bs : List Byte) (f : BitVec width → List Byte → DecodeResult) : DecodeResult :=
  if bs.length < k then .error .truncated
  else if beValue (bs.take k) < 2 ^ width then f (BitVec.ofNat width (beValue (bs.take k))) (bs.drop k)
  else .error .paddingBits

/-- Reads `n` bytes as they stand. -/
def withBytes (n : Nat) (bs : List Byte) (f : List Byte → List Byte → DecodeResult) : DecodeResult :=
  if bs.length < n then .error .truncated else f (bs.take n) (bs.drop n)

/-- Reads `m` codewords of four bytes each. -/
def withWords : Nat → List Byte → (List Word → List Byte → DecodeResult) → DecodeResult
  | 0, bs, f => f [] bs
  | m + 1, bs, f => withWord 4 32 bs fun w rest => withWords m rest fun ws rest' => f (w :: ws) rest'

/-- The row of the function-code value v (R56). -/
def functionCodeRow (v : BitVec 8) : Instr :=
  if v = 0#8 then .fcTimesync
  else if v = 1#8 then .fcDown
  else if v = 2#8 then .fcIllegal2
  else if v = 3#8 then .fcUp
  else .fcIllegal4To255 v

/-- The row of the policy value v (R57). -/
def policyRow (v : BitVec 8) : Instr :=
  if v = 0#8 then .polTruncate
  else if v = 1#8 then .polCopybatch1
  else if v = 2#8 then .polLeaveidle
  else .polIllegal3To255 v

/-- The row of the status value v (R18). -/
def statusRow (v : BitVec 2) : Instr :=
  if v = 0#2 then .stOk
  else if v = 1#2 then .stInvalidAddress
  else if v = 2#2 then .stInvalidFunctionCode
  else .stInvalidBatch2Policy

/-- The row of the character code c (R55, R102). -/
def symbolRow (c : Byte) : Instr :=
  if c = 0x30#8 then .sym0
  else if c = 0x31#8 then .sym1
  else if c = 0x32#8 then .sym2
  else if c = 0x33#8 then .sym3
  else if c = 0x34#8 then .sym4
  else if c = 0x35#8 then .sym5
  else if c = 0x36#8 then .sym6
  else if c = 0x37#8 then .sym7
  else if c = 0x38#8 then .sym8
  else if c = 0x39#8 then .sym9
  else if c = 0x2A#8 then .symStar
  else if c = 0x55#8 then .symU
  else if c = 0x20#8 then .symSpace
  else if c = 0x2D#8 then .symMinus
  else if c = 0x28#8 then .symLparen
  else if c = 0x29#8 then .symRparen
  else .symDefault c

/-- The row of the nibble x (R53). -/
def nibbleRow (x : BitVec 4) : Instr :=
  if x = 0x0#4 then .nib0
  else if x = 0x8#4 then .nib8
  else if x = 0x4#4 then .nib4
  else if x = 0xC#4 then .nibC
  else if x = 0x2#4 then .nib2
  else if x = 0xA#4 then .nibA
  else if x = 0x6#4 then .nib6
  else if x = 0xE#4 then .nibE
  else if x = 0x1#4 then .nib1
  else if x = 0x9#4 then .nib9
  else if x = 0x5#4 then .nib5
  else if x = 0xD#4 then .nibD
  else if x = 0x3#4 then .nib3
  else if x = 0xB#4 then .nibB
  else if x = 0x7#4 then .nib7
  else .nibF

/-- The row of a codeword before inversion (R46 to R49): bit 31 tells the kind, the idle codeword is the one
constant. -/
def codewordRow (w : Word) : Instr :=
  if w = Config.idle then .cwIdle
  else if w.getLsbD 31 then
    .cwMsg (w.extractLsb' 27 4) (w.extractLsb' 23 4) (w.extractLsb' 19 4) (w.extractLsb' 15 4) (w.extractLsb' 11 4)
      (w.extractLsb' 1 10) (w.extractLsb' 0 1)
  else .cwAddr (w.extractLsb' 13 18) (w.extractLsb' 11 2) (w.extractLsb' 1 10) (w.extractLsb' 0 1)

/-- The row of a codeword after inversion (R50): bit 31 reads 1 for address and idle, 0 for message codewords. -/
def codewordInvertedRow (w : Word) : Instr :=
  if w = ~~~Config.idle then .cwIdleInverted
  else if w.getLsbD 31 then
    .cwAddrInverted (w.extractLsb' 13 18) (w.extractLsb' 11 2) (w.extractLsb' 1 10) (w.extractLsb' 0 1)
  else
    .cwMsgInverted (w.extractLsb' 27 4) (w.extractLsb' 23 4) (w.extractLsb' 19 4) (w.extractLsb' 15 4)
      (w.extractLsb' 11 4) (w.extractLsb' 1 10) (w.extractLsb' 0 1)

/-- The group of a MSGCW row: five character fields and the number of absent ones among them (log 6). -/
def groupRow (cs : List Byte) (absent : BitVec 8) (rest : List Byte) : DecodeResult :=
  if 4 < absent.toNat then .error .groupLength
  else if (cs.drop (5 - absent.toNat)).all (· == 0#8) then .ok (.msgcw (cs.take (5 - absent.toNat)), rest)
  else .error .absentCharacter

/-- Total on any bytes at any place; a rejection has a name. Field positions are those of the row's pattern in
spec/opcode_table.json, bit 0 the rightmost. -/
def decode (sel : Selector) (bs : List Byte) : DecodeResult :=
  match sel with
  | .encode => withWord 7 49 bs fun v rest => withWord 1 8 rest fun len rest => withBytes len.toNat rest fun text rest =>
      .ok (.encode (v.extractLsb' 17 32) (v.extractLsb' 9 8) (v.extractLsb' 1 8) (v.getLsbD 0) text, rest)
  | .validate => withWord 6 48 bs fun v rest =>
      .ok (.validate (v.extractLsb' 16 32) (v.extractLsb' 8 8) (v.extractLsb' 0 8), rest)
  | .truncate => withWord 1 8 bs fun v rest => .ok (.truncate v, rest)
  | .bchchk => withWord 4 32 bs fun v rest =>
      if v &&& 0x7FF#32 = 0#32 then .ok (.bchchk v, rest) else .error .fixedBits
  | .evenpar => withWord 4 32 bs fun u rest =>
      if u &&& 1#32 = 0#32 then .ok (.evenpar u, rest) else .error .fixedBits
  | .bchenc => withWord 4 32 bs fun v rest =>
      if v &&& 0x7FF#32 = 0#32 then .ok (.bchenc v, rest) else .error .fixedBits
  | .addrcw => withWord 3 23 bs fun v rest =>
      .ok (.addrcw ((v.extractLsb' 2 21).setWidth 32) ((v.extractLsb' 0 2).setWidth 8), rest)
  | .charnib => withWord 1 8 bs fun c rest => .ok (.charnib c, rest)
  | .rev4 => withWord 1 4 bs fun x rest => .ok (.rev4 x, rest)
  | .msgcw => withBytes 5 bs fun cs rest => withWord 1 8 rest fun absent rest => groupRow cs absent rest
  | .msgenc => withWord 1 6 bs fun n rest => withBytes n.toNat rest fun text rest => .ok (.msgenc text, rest)
  | .batchinit => withWord 4 32 bs fun v rest =>
      if v = Config.idle then .ok (.batchinit, rest) else .error .fixedBits
  | .place => withWord 5 38 bs fun v rest => .ok (.place (v.extractLsb' 32 6) (v.extractLsb' 0 32), rest)
  | .assemble => withWord 5 40 bs fun v rest => withWords (v.extractLsb' 32 4).toNat rest fun mcw rest =>
      .ok (.assemble (v.extractLsb' 36 4) (v.extractLsb' 0 32) mcw, rest)
  | .dispose => withWord 2 13 bs fun v rest => .ok (.dispose (v.extractLsb' 8 5) (v.extractLsb' 0 8), rest)
  | .invert => withWord 1 1 bs fun v rest => .ok (.invert (v.getLsbD 0), rest)
  | .serialize => withWord 4 32 bs fun v rest => .ok (.serialize v, rest)
  | .cw => withWord 4 32 bs fun w rest => .ok (codewordRow w, rest)
  | .cwInverted => withWord 4 32 bs fun w rest => .ok (codewordInvertedRow w, rest)
  | .fc8 => withWord 1 8 bs fun v rest => .ok (functionCodeRow v, rest)
  | .pol8 => withWord 1 8 bs fun v rest => .ok (policyRow v, rest)
  | .st2 => withWord 1 2 bs fun v rest => .ok (statusRow v, rest)
  | .bc2 => withWord 1 2 bs fun v rest =>
      if v = 1#2 then .ok (.batchcount1, rest) else if v = 2#2 then .ok (.batchcount2, rest) else .error .noRow
  | .b1 => withWord 1 1 bs fun v rest => .ok (if v.getLsbD 0 then .invertTrue else .invertFalse, rest)
  | .char8 => withWord 1 8 bs fun c rest => .ok (symbolRow c, rest)
  | .nib4 => withWord 1 4 bs fun x rest => .ok (nibbleRow x, rest)

/-- The five character fields of a MSGCW row: absent characters are zero (log 6). -/
def groupFields (group : List Byte) : List Byte :=
  group.take 5 ++ List.replicate (5 - group.length) 0#8

/-- The place of an instruction and its bytes, from the same patterns. -/
def encode : Instr → Selector × List Byte
  | .encode a f q i text =>
      (.encode, beBytes 7 (a ++ f ++ q ++ BitVec.ofBool i).toNat ++ (BitVec.ofNat 8 text.length :: text))
  | .validate a f q => (.validate, beBytes 6 (a ++ f ++ q).toNat)
  | .truncate len => (.truncate, beBytes 1 len.toNat)
  | .bchchk v => (.bchchk, beBytes 4 v.toNat)
  | .evenpar u => (.evenpar, beBytes 4 u.toNat)
  | .bchenc v => (.bchenc, beBytes 4 v.toNat)
  | .addrcw a f => (.addrcw, beBytes 3 (a.setWidth 21 ++ f.setWidth 2).toNat)
  | .charnib c => (.charnib, beBytes 1 c.toNat)
  | .rev4 x => (.rev4, beBytes 1 x.toNat)
  | .msgcw group => (.msgcw, groupFields group ++ [BitVec.ofNat 8 (5 - group.length)])
  | .msgenc text => (.msgenc, BitVec.ofNat 8 text.length :: text)
  | .batchinit => (.batchinit, beBytes 4 Config.idle.toNat)
  | .place k v => (.place, beBytes 5 (k ++ v).toNat)
  | .assemble aslot acw mcw =>
      (.assemble, beBytes 5 (aslot ++ BitVec.ofNat 4 mcw.length ++ acw).toNat ++ mcw.flatMap fun w => beBytes 4 w.toNat)
  | .dispose h q => (.dispose, beBytes 2 (h ++ q).toNat)
  | .invert i => (.invert, beBytes 1 (BitVec.ofBool i).toNat)
  | .serialize v => (.serialize, beBytes 4 v.toNat)
  | .cwAddr a f c p => (.cw, beBytes 4 (addrBits 0#1 a f c p).toNat)
  | .cwMsg n0 n1 n2 n3 n4 c p => (.cw, beBytes 4 (msgBits 1#1 n0 n1 n2 n3 n4 c p).toNat)
  | .cwIdle => (.cw, beBytes 4 Config.idle.toNat)
  | .cwIdleInverted => (.cwInverted, beBytes 4 (~~~Config.idle).toNat)
  | .cwAddrInverted a f c p => (.cwInverted, beBytes 4 (addrBits 1#1 a f c p).toNat)
  | .cwMsgInverted n0 n1 n2 n3 n4 c p => (.cwInverted, beBytes 4 (msgBits 0#1 n0 n1 n2 n3 n4 c p).toNat)
  | .fcTimesync => (.fc8, [0#8])
  | .fcDown => (.fc8, [1#8])
  | .fcIllegal2 => (.fc8, [2#8])
  | .fcUp => (.fc8, [3#8])
  | .fcIllegal4To255 v => (.fc8, [v])
  | .polTruncate => (.pol8, [0#8])
  | .polCopybatch1 => (.pol8, [1#8])
  | .polLeaveidle => (.pol8, [2#8])
  | .polIllegal3To255 v => (.pol8, [v])
  | .stOk => (.st2, [0#8])
  | .stInvalidAddress => (.st2, [1#8])
  | .stInvalidFunctionCode => (.st2, [2#8])
  | .stInvalidBatch2Policy => (.st2, [3#8])
  | .batchcount1 => (.bc2, [1#8])
  | .batchcount2 => (.bc2, [2#8])
  | .invertFalse => (.b1, [0#8])
  | .invertTrue => (.b1, [1#8])
  | .sym0 => (.char8, [0x30#8])
  | .sym1 => (.char8, [0x31#8])
  | .sym2 => (.char8, [0x32#8])
  | .sym3 => (.char8, [0x33#8])
  | .sym4 => (.char8, [0x34#8])
  | .sym5 => (.char8, [0x35#8])
  | .sym6 => (.char8, [0x36#8])
  | .sym7 => (.char8, [0x37#8])
  | .sym8 => (.char8, [0x38#8])
  | .sym9 => (.char8, [0x39#8])
  | .symStar => (.char8, [0x2A#8])
  | .symU => (.char8, [0x55#8])
  | .symSpace => (.char8, [0x20#8])
  | .symMinus => (.char8, [0x2D#8])
  | .symLparen => (.char8, [0x28#8])
  | .symRparen => (.char8, [0x29#8])
  | .symDefault c => (.char8, [c])
  | .nib0 => (.nib4, [0x00#8])
  | .nib8 => (.nib4, [0x08#8])
  | .nib4 => (.nib4, [0x04#8])
  | .nibC => (.nib4, [0x0C#8])
  | .nib2 => (.nib4, [0x02#8])
  | .nibA => (.nib4, [0x0A#8])
  | .nib6 => (.nib4, [0x06#8])
  | .nibE => (.nib4, [0x0E#8])
  | .nib1 => (.nib4, [0x01#8])
  | .nib9 => (.nib4, [0x09#8])
  | .nib5 => (.nib4, [0x05#8])
  | .nibD => (.nib4, [0x0D#8])
  | .nib3 => (.nib4, [0x03#8])
  | .nibB => (.nib4, [0x0B#8])
  | .nib7 => (.nib4, [0x07#8])
  | .nibF => (.nib4, [0x0F#8])

/-- The place at which a BARE word of 32 bits is read (log 7): the row with the most fixed bits that match,
the first in the table where two have as many. -/
def bareSelector32 (w : Nat) : Selector :=
  if w = Config.idle.toNat then .batchinit
  else if w = (~~~Config.idle).toNat then .cwInverted
  else if w % 0x800 = 0 then .bchchk
  else if w % 2 = 0 then .evenpar
  else .cw

/-- The same for a bare word of one byte: a function code for 0 to 3, a nibble for 4 to 15, a listed character,
a MSGENC count below 64, else a TRUNCATE length. -/
def bareSelector8 (w : Nat) : Selector :=
  if w < 4 then .fc8
  else if w < 16 then .nib4
  else if listedCodes.contains (BitVec.ofNat 8 w) then .char8
  else if w < 64 then .msgenc
  else .truncate

/-- The place at which a bare word of `nbits` bits is read; none where no row has that width or the value does not fit
it. The widths of the table stand beside their roundings to whole bytes. -/
def bareSelector (nbits w : Nat) : Option Selector :=
  if 2 ^ nbits ≤ w then none
  else if nbits = 56 ∨ nbits = 49 then some .encode
  else if nbits = 48 then some .validate
  else if nbits = 40 then some (if w < 2 ^ 38 then .place else .msgcw)
  else if nbits = 38 then some .place
  else if nbits = 32 then some (bareSelector32 w)
  else if nbits = 24 ∨ nbits = 23 then some .addrcw
  else if nbits = 16 ∨ nbits = 13 then some .dispose
  else if nbits = 8 then some (bareSelector8 w)
  else if nbits = 6 then some .msgenc
  else if nbits = 4 then some .nib4
  else if nbits = 2 then some .st2
  else if nbits = 1 then some .b1
  else none

/-- The bytes of a bare word: `nbits` rounded up to whole bytes, most significant first, and then the zeros that
stand for the operands the table gives no bits (at most 63 characters or 15 codewords). -/
def bareBytes (nbits w : Nat) : List Byte :=
  beBytes ((nbits + 7) / 8) w ++ List.replicate 64 0#8

/-- The instruction the decoder reads from a bare word of the table, at the place `bareSelector` gives. -/
def decodeTableWord (nbits w : Nat) : Option Instr :=
  match bareSelector nbits w with
  | none => none
  | some sel =>
    match decode sel (bareBytes nbits w) with
    | .ok (i, _) => some i
    | .error _ => none

end Sys2Proof
end

