-- ==== Sys2Proof/Machine/State.lean ====
section
/-! DEFINITION. Everything the spec gives the machine, as plain data: the request record REQ and the response
record RSP (10_state.md R10 to R20), the call-scoped values (R22), and three things of the model's own: the result
of the operation executed last, where the spec names no state for it (log 9), and the host's remaining actions
(log 8). -/

namespace Sys2Proof.Machine

/-- TEXT, the only space that the host writes cell by cell (20_memory.md R31): index and character, indices
strictly rising, a cell that is not listed never written. -/
abbrev Memory := List Host.Cell

/-- One batch: 16 codewords by slot (R20). -/
abbrev Batch := Vector Word 16

/-- SLOT, the slot array B: 32 codewords by absolute slot index (R22, 20_memory.md R32). -/
abbrev Slots := Vector Word 32

/-- The three error kinds (60_exceptions.md R161). -/
inductive ErrorKind where
  | invalidAddress | invalidFunctionCode | invalidBatch2Policy
  deriving DecidableEq, Repr

/-- What VALIDATE answers and what `RSP.status` says: OK or one error kind (R18, R70). -/
inductive Verdict where
  | ok
  | err (kind : ErrorKind)
  deriving DecidableEq, Repr

/-- A batch count holds 1 or 2 and nothing else (R19; the two-valued type of D24). -/
inductive BatchCount where
  | one | two
  deriving DecidableEq, Repr

/-- The request record REQ (R10 to R16). `none` is the spec's own state "holds no value": the field has not been
written since reset (R27, R151). -/
structure Req where
  address : Option (BitVec 32)
  functionCode : Option (BitVec 8)
  batch2Policy : Option (BitVec 8)
  invertPhase : Option Bool
  textLen : Option Nat
  text : Memory
  deriving DecidableEq, Repr

/-- A request whose every field is written: the input of one transaction (R145). `text` is `REQ.text[0..L-1]`. -/
structure Request where
  address : BitVec 32
  functionCode : BitVec 8
  batch2Policy : BitVec 8
  invertPhase : Bool
  text : List Byte
  deriving DecidableEq, Repr

/-- The response record RSP: one of three shapes (R17). The byte views OUT1 and OUT2 are computed from the batches
(R35, R36), never stored. -/
inductive Rsp where
  | idle
  | ok (batchCount : BatchCount) (batch1 batch2 : Batch)
  | err (kind : ErrorKind)
  deriving DecidableEq, Repr

/-- The call-scoped values of R22, each under its own name. They stand in State so that each unit operation of R60
can be executed alone; ENCODE neither reads what stands here nor leaves anything (R26). -/
structure Work where
  n : Nat
  frame : BitVec 3
  aslot : Nat
  acw : Word
  m : Nat
  mcw : List Word
  slots : Slots
  cursor : Nat
  highest : Nat
  count : BatchCount
  w : Word
  chk : BitVec 11
  deriving DecidableEq, Repr

/-- What stands in the call-scoped values outside a transaction, where the spec gives them none (R27): zero, and a
count of 1 (log 10). -/
def Work.fresh : Work where
  n := 0
  frame := 0
  aslot := 0
  acw := 0
  m := 0
  mcw := []
  slots := Vector.replicate 32 0
  cursor := 0
  highest := 0
  count := .one
  w := 0
  chk := 0

/-- The 20-bit payload of a codeword, read by its format (R46 to R49). -/
inductive Payload where
  | address (addrHi : BitVec 18) (fc : BitVec 2)
  | message (n0 n1 n2 n3 n4 : BitVec 4)
  | idle
  deriving DecidableEq, Repr

/-- A codeword read field by field (R46); `word` is the word before inversion, so under `inverted` its complement
was read (R50). -/
structure CodewordView where
  inverted : Bool
  word : Word
  payload : Payload
  check : BitVec 10
  parity : BitVec 1
  deriving DecidableEq, Repr

/-- The model's own record of what the operation or host read executed last answered, where the spec names no state
for the answer (log 9). -/
inductive Result where
  /-- Nothing has been answered since reset. -/
  | none
  /-- VALIDATE's result (R70). -/
  | verdict (v : Verdict)
  /-- A 32-bit result: BCHCHK, EVENPAR, BCHENC, MSGCW, or a codeword the host read. -/
  | word (w : Word)
  /-- CHARNIB's symbol value (R101). -/
  | symbol (s : BitVec 4)
  /-- REV4's result (R103). -/
  | nibble (x : BitVec 4)
  /-- SERIALIZE's bytes (R139), or bytes the host read from OUT1 or OUT2. -/
  | bytes (bs : List Byte)
  /-- A codeword of the output, read by its format (R46 to R50). -/
  | codeword (view : CodewordView)
  /-- A row of the symbol table: symbol value, nibble, and the codeword of the character alone (R55). -/
  | character (s : BitVec 4) (nibble : BitVec 4) (codeword : Word)
  /-- A nibble read back: its symbol value and the code of the character that has it (R53, R55). -/
  | nibbleRead (s : BitVec 4) (character : Byte)
  /-- A status value read, `RSP.valid` being 1 (R18, R58). -/
  | status (v : Verdict)
  /-- A batch count read (R19, R58). -/
  | batchCount (c : BatchCount)
  /-- `RSP.valid` read (R18). -/
  | valid (b : Bool)
  deriving DecidableEq, Repr

/-- Which of the two batches or byte views is read (R35). -/
inductive BatchSel where
  | first | second
  deriving DecidableEq, Repr

/-- What the host may do at the block's interface between transactions (R23, 70_reset_and_hazards.md R181): reset it,
write one part of REQ, start ENCODE on REQ as it stands, read one part of RSP. -/
inductive PortAction where
  | reset
  | writeAddress (v : BitVec 32)
  | writeFunctionCode (v : BitVec 8)
  | writeBatch2Policy (v : BitVec 8)
  | writeInvertPhase (b : Bool)
  | writeTextLen (len : Nat)
  | writeChar (i : Nat) (c : Byte)
  | start
  | readValid
  | readStatus
  | readBatchCount
  | readWord (b : BatchSel) (i : Nat)
  | readBytes (b : BatchSel) (a n : Nat)
  deriving DecidableEq, Repr

/-- One entry of the host's script: an action at the port, or one row of the opcode table with the bytes of its
operands (log 8). -/
inductive HostAction where
  | port (a : PortAction)
  | issue (sel : Selector) (bytes : List Byte)
  deriving DecidableEq, Repr

/-- Why a step stops with a fault. The block itself has no fault that stops it (R160, R164). -/
inductive Fault where
  /-- The host writes a character at an index at or above TEXT_LEN_MAX, where TEXT has no cell (R15, R31). Raised by
  the port action `writeChar`. Safe. -/
  | noSuchTextIndex
  deriving DecidableEq, Repr

/-- Why a step is refused. All are safe: nothing can be proved of a state after them. -/
inductive Refusal where
  /-- An arm of exec without a meaning. No arm of this model has it. -/
  | notModelled (mnemonic : String)
  /-- The issued bytes are no instruction at their place. Raised by the step. -/
  | undecodable (why : DecodeError)
  /-- BCHCHK or BCHENC with a set bit among bits 10..0 of the operand (R87, U2). -/
  | bchOperandLowBits
  /-- EVENPAR with bit 0 of the operand set (R84, U3). -/
  | parityBitSet
  /-- ADDRCW with an address or function code that VALIDATE rejects (R96, U4). -/
  | addressNotValidated
  /-- MSGCW on 0 or more than 5 characters (R104, U5). -/
  | groupLength
  /-- MSGENC on more than 40 characters (R108, U5). -/
  | textNotTruncated
  /-- DISPOSE that must look at a policy VALIDATE rejects (R125, D22). -/
  | policyNotValidated
  /-- A start with a field of REQ, or a character below textLen, unwritten since reset: "a model refuses it" (R151),
  "refused by the model" (R27), U7. Raised by the port action `start` only; the instruction ENCODE writes all of REQ. -/
  | requestUnwritten
  /-- A start with textLen above TEXT_LEN_MAX (R151, U7). -/
  | textLenAboveMax
  /-- A host read of a field that the tag of RSP does not carry (R17, U8). -/
  | fieldNotCarried
  /-- A host read outside 0..15 of a word view or 0..63 of a byte view (R37, U9). -/
  | outsideView
  deriving DecidableEq, Repr

/-- The machine. -/
structure State where
  /-- REQ (R10 to R16). -/
  req : Req
  /-- RSP (R17 to R20). -/
  rsp : Rsp
  /-- The call-scoped values (R22). -/
  work : Work
  /-- The model's own: the answer of the operation executed last (log 9). -/
  result : Result
  /-- The model's own: what the host will still do, first action first (log 8). -/
  pending : List HostAction
  deriving DecidableEq, Repr

/-- REQ after reset: no field holds a value (R27). -/
def Req.unwritten : Req where
  address := none
  functionCode := none
  batch2Policy := none
  invertPhase := none
  textLen := none
  text := []

/-- The machine right after reset (R27, R180). -/
def State.reset : State where
  req := Req.unwritten
  rsp := .idle
  work := Work.fresh
  result := .none
  pending := []

end Sys2Proof.Machine
end

