-- ==== Sys2Proof/Machine/Flags.lean ====
section
/-! DEFINITION. The population count behind the parity bit (41_bch_encoder.md R84) and the bits of the response's
flags (10_state.md R18, R19). The parity bit is data inside a codeword, not a flag (R18); it stands here because it is
the one count of bits the block makes. -/

namespace Sys2Proof.Machine

/-- The number of set bits among bits k-1..0 of w. -/
def popcountBelow (w : Word) : Nat → Nat
  | 0 => 0
  | k + 1 => popcountBelow w k + (w.getLsbD k).toNat

/-- `popcount32` of the notation (00_scope.md R8). -/
def popcount32 (w : Word) : Nat :=
  popcountBelow w 32

/-- The condition EVENPAR tests (R25, R84). -/
def oddPopcount (w : Word) : Bool :=
  popcount32 w % 2 = 1

/-- The status code of an error kind (R18). -/
def errorCode : ErrorKind → BitVec 2
  | .invalidAddress => 1#2
  | .invalidFunctionCode => 2#2
  | .invalidBatch2Policy => 3#2

/-- The status code of a verdict; 0 is OK (R18). -/
def statusCode : Verdict → BitVec 2
  | .ok => 0#2
  | .err k => errorCode k

/-- `RSP.valid`: 0 only under Idle (R18). -/
def validBit : Rsp → Bool
  | .idle => false
  | .ok _ _ _ => true
  | .err _ => true

/-- What `RSP.status` says; no value under Idle (R17, R18). -/
def statusOf : Rsp → Option Verdict
  | .idle => none
  | .ok _ _ _ => some .ok
  | .err k => some (.err k)

/-- `RSP.batchCount`; a value under Ok only (R17, R19). -/
def batchCountOf : Rsp → Option BatchCount
  | .idle => none
  | .ok c _ _ => some c
  | .err _ => none

/-- The two bits of a batch count, 1 or 2 (R19). -/
def batchCountBits : BatchCount → BitVec 2
  | .one => 1#2
  | .two => 2#2

end Sys2Proof.Machine
end

