-- ==== Sys2Proof/Machine/Operands.lean ====
section
/-! DEFINITION. The operand forms: what an operand must satisfy before a unit may use it (the contracts of
40_validator.md to 44_batch_assembler.md), how a codeword is read field by field (30_encoding.md R46 to R50), and
the inverse of the symbol table (R55). -/

namespace Sys2Proof.Machine

/-- 1 ≤ address ≤ 0x1FFFFF over the whole port (R71). -/
def legalAddress (address : BitVec 32) : Bool :=
  1 ≤ address.toNat && address.toNat ≤ Config.addrMax

/-- The whole function code is 0, 1 or 3 (R72). -/
def legalFunctionCode (functionCode : BitVec 8) : Bool :=
  functionCode = 0#8 || functionCode = 1#8 || functionCode = 3#8

/-- The whole policy is 0, 1 or 2 (R73). -/
def legalPolicy (batch2Policy : BitVec 8) : Bool :=
  batch2Policy = 0#8 || batch2Policy = 1#8 || batch2Policy = 2#8

/-- Bits 10..0 of a BCH operand are zero (R81, R87). -/
def lowBitsClear (v : Word) : Bool :=
  v &&& 0x7FF#32 = 0#32

/-- The operands are inside the contract of the unit that reads them (R87, R84, R96, R108, R104, R125); a row without
a contract is always inside. ENCODE's only bound is TEXT_LEN_MAX (R151). -/
def inContract : Instr → Bool
  | .encode _ _ _ _ text => text.length ≤ Config.textLenMax
  | .bchchk v => lowBitsClear v
  | .evenpar u => !u.getLsbD 0
  | .bchenc v => lowBitsClear v
  | .addrcw address functionCode => legalAddress address && legalFunctionCode functionCode
  | .msgcw group => 1 ≤ group.length && group.length ≤ 5
  | .msgenc text => text.length ≤ Config.textMax
  | .dispose highest batch2Policy => 16 ≤ highest.toNat || legalPolicy batch2Policy
  | .validate _ _ _ | .truncate _ | .charnib _ | .rev4 _ | .batchinit | .place _ _ | .assemble _ _ _ | .invert _ => true
  | .serialize _ | .cwAddr _ _ _ _ | .cwMsg _ _ _ _ _ _ _ | .cwIdle | .cwIdleInverted | .cwAddrInverted _ _ _ _ => true
  | .cwMsgInverted _ _ _ _ _ _ _ | .fcTimesync | .fcDown | .fcIllegal2 | .fcUp | .fcIllegal4To255 _ => true
  | .polTruncate | .polCopybatch1 | .polLeaveidle | .polIllegal3To255 _ | .stOk | .stInvalidAddress => true
  | .stInvalidFunctionCode | .stInvalidBatch2Policy | .batchcount1 | .batchcount2 | .invertFalse | .invertTrue => true
  | .sym0 | .sym1 | .sym2 | .sym3 | .sym4 | .sym5 | .sym6 | .sym7 | .sym8 | .sym9 | .symStar | .symU | .symSpace => true
  | .symMinus | .symLparen | .symRparen | .symDefault _ | .nib0 | .nib8 | .nib4 | .nibC | .nib2 | .nibA | .nib6 => true
  | .nibE | .nib1 | .nib9 | .nib5 | .nibD | .nib3 | .nibB | .nib7 | .nibF => true

/-- The payload of a codeword before inversion, by its format (R46 to R49). An address codeword equal to IDLE reads
as idle, since nothing tells the two apart (R95). -/
def payloadOf (w : Word) : Payload :=
  if w = Config.idle then .idle
  else if w.getLsbD 31 then
    .message (w.extractLsb' 27 4) (w.extractLsb' 23 4) (w.extractLsb' 19 4) (w.extractLsb' 15 4) (w.extractLsb' 11 4)
  else .address (w.extractLsb' 13 18) (w.extractLsb' 11 2)

/-- Reads a word of RSP field by field, knowing whether inversion was asked for (R50). -/
def viewOf (inverted : Bool) (w : Word) : CodewordView :=
  let plain := if inverted then w ^^^ Config.inv else w
  { inverted := inverted
    word := plain
    payload := payloadOf plain
    check := plain.extractLsb' 1 10
    parity := plain.extractLsb' 0 1 }

/-- The code of the listed character with the given symbol value (R55). -/
def symbolCharacter (s : BitVec 4) : Byte :=
  if s.toNat < 10 then BitVec.ofNat 8 (0x30 + s.toNat)
  else if s = 10#4 then 0x2A#8
  else if s = 11#4 then 0x55#8
  else if s = 12#4 then 0x20#8
  else if s = 13#4 then 0x2D#8
  else if s = 14#4 then 0x28#8
  else 0x29#8

end Sys2Proof.Machine
end

