-- ==== Sys2Proof/Machine/Ops.lean ====
section
/-! DEFINITION. The named operations the meanings are written over: one setter per part of State, TEXT as a memory
(20_memory.md R31), reading a complete request (46_encode_transaction.md R151), the shared operation `raise` by which
a transaction ends in an error (60_exceptions.md R163) and its counterpart `respond`, the end of a transaction
(R22, R26), and the byte view of a batch (20_memory.md R36). -/

namespace Sys2Proof.Machine

/-- What a meaning answers. -/
abbrev Answer := Host.Outcome State Fault Refusal

/-- Replaces REQ. -/
def State.setReq (s : State) (r : Req) : State := { s with req := r }

/-- Replaces the whole of RSP, tag and contents together (R17). -/
def State.setRsp (s : State) (r : Rsp) : State := { s with rsp := r }

/-- Replaces the call-scoped values. -/
def State.setWork (s : State) (w : Work) : State := { s with work := w }

/-- Replaces the model's own answer record. -/
def State.setResult (s : State) (r : Result) : State := { s with result := r }

/-- Replaces the host's script. -/
def State.setPending (s : State) (p : List HostAction) : State := { s with pending := p }

/-- What an index that is not listed reads as: no value, since nothing has been written there (R27, log 1). -/
def Memory.unlisted : Option Byte := none

/-- `MemRead(TEXT, i, 1)` (R31). -/
def Memory.read : Memory → Nat → Option Byte
  | [], _ => Memory.unlisted
  | (a, b) :: rest, i => if i = a then some b else Memory.read rest i

/-- The host's write of one character (R30, R31), which keeps the indices rising. -/
def Memory.write : Memory → Nat → Byte → Memory
  | [], i, c => [(i, c)]
  | (a, b) :: rest, i, c =>
    if i < a then (i, c) :: (a, b) :: rest
    else if i = a then (i, c) :: rest
    else (a, b) :: Memory.write rest i c

/-- The canonical form: indices strictly rising. No cell can equal what an unlisted index reads as, which is no
value. -/
def Memory.wf : Memory → Bool
  | [] => true
  | [_] => true
  | (a, _) :: (b, c) :: rest => a < b && Memory.wf ((b, c) :: rest)

/-- Writes characters from index i on. -/
def Memory.writeText : Memory → Nat → List Byte → Memory
  | mem, _, [] => mem
  | mem, i, c :: cs => Memory.writeText (Memory.write mem i c) (i + 1) cs

/-- Reads n characters from index i on; none if one of them has no value. -/
def Memory.readText (mem : Memory) (i : Nat) : Nat → Option (List Byte)
  | 0 => some []
  | n + 1 =>
    match Memory.read mem i, Memory.readText mem (i + 1) n with
    | some c, some cs => some (c :: cs)
    | _, _ => none

/-- The request a start finds in REQ, or why the start is refused (R151, R27): all five fields and every character
below textLen must have been written, those from index 40 on too (log 21). -/
def readRequest (q : Req) : Except Refusal Request :=
  match q.address, q.functionCode, q.batch2Policy, q.invertPhase, q.textLen with
  | some a, some f, some p, some i, some len =>
    if len ≤ Config.textLenMax then
      match Memory.readText q.text 0 len with
      | some text => .ok ⟨a, f, p, i, text⟩
      | none => .error .requestUnwritten
    else .error .textLenAboveMax
  | _, _, _, _, _ => .error .requestUnwritten

/-- The host presents a whole request: every field of REQ written, the characters at 0..L-1 (R63, R181). -/
def presentRequest (q : Request) (s : State) : State :=
  s.setReq
    { address := some q.address
      functionCode := some q.functionCode
      batch2Policy := some q.batch2Policy
      invertPhase := some q.invertPhase
      textLen := some q.text.length
      text := Memory.writeText s.req.text 0 q.text }

/-- `raise kind`: the block's only exception. RSP becomes Err(kind) and nothing else is written; nothing is saved, and
no operation returns from it, since the block is ready for the next transaction at once (R163, R164). -/
def raise (kind : ErrorKind) (s : State) : State :=
  s.setRsp (.err kind)

/-- Batch 1: absolute slots 0 to 15 (R22, R32). -/
def firstBatch (slots : Slots) : Batch :=
  Vector.ofFn fun i : Fin 16 => slots[i.val]

/-- Batch 2: absolute slots 16 to 31 (R22, R32). -/
def secondBatch (slots : Slots) : Batch :=
  Vector.ofFn fun i : Fin 16 => slots[16 + i.val]

/-- The last line of ENCODE: the whole of RSP is replaced by Ok (R17, R145). -/
def respond (count : BatchCount) (slots : Slots) (s : State) : State :=
  s.setRsp (.ok count (firstBatch slots) (secondBatch slots))

/-- The end of a transaction: no call-scoped value survives it (R22, R26). -/
def finish (s : State) : State :=
  s.setWork Work.fresh

/-- The four bytes of a codeword, most significant first (R139). -/
def serialize (v : Word) : List Byte :=
  [v.extractLsb' 24 8, v.extractLsb' 16 8, v.extractLsb' 8 8, v.extractLsb' 0 8]

/-- The byte view of a batch, 64 bytes (R35, R36): `OUTb[4*i + j]` is byte j of slot i. -/
def byteView (b : Batch) : List Byte :=
  b.toList.flatMap serialize

end Sys2Proof.Machine
end

