-- ==== Sys2Proof/Machine/Codewords.lean ====
section
/-! DEFINITION. The codeword rows of the table (30_encoding.md R46 to R50, R64): "a decoder of the block's output …
can be written from those rows alone". Executing one reads the word it stands for field by field into the model's own
answer record; the block is not touched (R88, log 13). -/

namespace Sys2Proof.Machine

/-- Reads a codeword of the output. -/
def readCodeword (inverted : Bool) (w : Word) (s : State) : Answer :=
  .next (s.setResult (.codeword (viewOf inverted w)))

/-- ADDR_CW (R47). -/
def execCwAddr (addrHi : BitVec 18) (fc : BitVec 2) (check : BitVec 10) (parity : BitVec 1) (s : State) : Answer :=
  readCodeword false (addrBits 0#1 addrHi fc check parity) s

/-- MSG_CW (R48). -/
def execCwMsg (n0 n1 n2 n3 n4 : BitVec 4) (check : BitVec 10) (parity : BitVec 1) (s : State) : Answer :=
  readCodeword false (msgBits 1#1 n0 n1 n2 n3 n4 check parity) s

/-- IDLE_CW (R49). -/
def execCwIdle (s : State) : Answer :=
  readCodeword false Config.idle s

/-- IDLE_CW_INVERTED (R50): the word `0x85763E68`. -/
def execCwIdleInverted (s : State) : Answer :=
  readCodeword true 0x85763E68#32 s

/-- ADDR_CW_INVERTED (R50). -/
def execCwAddrInverted (addrHi : BitVec 18) (fc : BitVec 2) (check : BitVec 10) (parity : BitVec 1) (s : State) : Answer :=
  readCodeword true (addrBits 1#1 addrHi fc check parity) s

/-- MSG_CW_INVERTED (R50). -/
def execCwMsgInverted (n0 n1 n2 n3 n4 : BitVec 4) (check : BitVec 10) (parity : BitVec 1) (s : State) : Answer :=
  readCodeword true (msgBits 0#1 n0 n1 n2 n3 n4 check parity) s

end Sys2Proof.Machine
end

