-- ==== Sys2Proof/Machine/Enumerations.lean ====
section
/-! DEFINITION. The enumeration rows of the table (30_encoding.md R56 to R58, 10_state.md R16, R18, R19, R64). A
value of an INPUT enumeration (function code, policy, invertPhase) is executed as the host's write of that value to its
field of REQ: every value of the port may be presented, and VALIDATE sorts them (D3 to D5). A value of an OUTPUT
enumeration (status, batch count) is executed as the host's reading of that value, answered in the model's own record
(log 13). -/

namespace Sys2Proof.Machine

/-- The host writes `REQ.functionCode` (R12, R23). -/
def writeFunctionCode (v : BitVec 8) (s : State) : Answer :=
  .next (s.setReq { s.req with functionCode := some v })

/-- The host writes `REQ.batch2Policy` (R13, R23). -/
def writeBatch2Policy (v : BitVec 8) (s : State) : Answer :=
  .next (s.setReq { s.req with batch2Policy := some v })

/-- The host writes `REQ.invertPhase` (R16, R23). -/
def writeInvertPhase (b : Bool) (s : State) : Answer :=
  .next (s.setReq { s.req with invertPhase := some b })

/-- A status value of the response, `valid` being 1 (R18, R58). -/
def readStatusValue (v : Verdict) (s : State) : Answer :=
  .next (s.setResult (.status v))

/-- A batch count of the response (R19, R58). -/
def readBatchCountValue (c : BatchCount) (s : State) : Answer :=
  .next (s.setResult (.batchCount c))

/-- FC_TIMESYNC (R56). -/
def execFcTimesync (s : State) : Answer := writeFunctionCode 0#8 s

/-- FC_DOWN (R56). -/
def execFcDown (s : State) : Answer := writeFunctionCode 1#8 s

/-- FC_ILLEGAL_2 (R56). -/
def execFcIllegal2 (s : State) : Answer := writeFunctionCode 2#8 s

/-- FC_UP (R56). -/
def execFcUp (s : State) : Answer := writeFunctionCode 3#8 s

/-- FC_ILLEGAL_4_TO_255 (R56). -/
def execFcIllegal4To255 (value : BitVec 8) (s : State) : Answer := writeFunctionCode value s

/-- POL_TRUNCATE (R57). -/
def execPolTruncate (s : State) : Answer := writeBatch2Policy 0#8 s

/-- POL_COPYBATCH1 (R57). -/
def execPolCopybatch1 (s : State) : Answer := writeBatch2Policy 1#8 s

/-- POL_LEAVEIDLE (R57). -/
def execPolLeaveidle (s : State) : Answer := writeBatch2Policy 2#8 s

/-- POL_ILLEGAL_3_TO_255 (R57). -/
def execPolIllegal3To255 (value : BitVec 8) (s : State) : Answer := writeBatch2Policy value s

/-- ST_OK (R18). -/
def execStOk (s : State) : Answer := readStatusValue .ok s

/-- ST_INVALID_ADDRESS (R18). -/
def execStInvalidAddress (s : State) : Answer := readStatusValue (.err .invalidAddress) s

/-- ST_INVALID_FUNCTION_CODE (R18). -/
def execStInvalidFunctionCode (s : State) : Answer := readStatusValue (.err .invalidFunctionCode) s

/-- ST_INVALID_BATCH2_POLICY (R18). -/
def execStInvalidBatch2Policy (s : State) : Answer := readStatusValue (.err .invalidBatch2Policy) s

/-- BATCHCOUNT_1 (R19). -/
def execBatchcount1 (s : State) : Answer := readBatchCountValue .one s

/-- BATCHCOUNT_2 (R19). -/
def execBatchcount2 (s : State) : Answer := readBatchCountValue .two s

/-- INVERT_FALSE (R16). -/
def execInvertFalse (s : State) : Answer := writeInvertPhase false s

/-- INVERT_TRUE (R16). -/
def execInvertTrue (s : State) : Answer := writeInvertPhase true s

end Sys2Proof.Machine
end

