-- ==== Sys2Proof/Machine/BchEncoder.lean ====
section
/-! DEFINITION. BCHEncoder: BCHCHK, EVENPAR, BCHENC (41_bch_encoder.md R80 to R88). The working copy `w` and `chk`
are left in State by BCHCHK and BCHENC executed as operations; a use inside a builder leaves nothing (R80, R28,
log 11). -/

namespace Sys2Proof.Machine

/-- One step: test the most significant bit, exclusive-or with GEN if it is set, shift left by one (R81). -/
def bchStep (w : Word) : Word :=
  (if w.getLsbD 31 then w ^^^ Config.gen else w) <<< 1

/-- n steps on a working copy. -/
def bchSteps : Nat → Word → Word
  | 0, w => w
  | n + 1, w => bchSteps n (bchStep w)

/-- The working copy after the 21 steps (R81). -/
def bchWork (v : Word) : Word :=
  bchSteps 21 v

/-- `chk`, the working copy shifted right by 21: 11 bits (R22, R82). -/
def bchChk (v : Word) : BitVec 11 :=
  (bchWork v).extractLsb' 21 11

/-- BCHCHK(v): the check field merged into the operand (R81). -/
def bchchk (v : Word) : Word :=
  v ||| (bchChk v).setWidth 32

/-- EVENPAR(u): one added when the count of set bits is odd (R84). -/
def evenpar (u : Word) : Word :=
  if oddPopcount u then u + 1#32 else u

/-- BCHENC(v) (R85). -/
def bchenc (v : Word) : Word :=
  evenpar (bchchk v)

/-- Leaves the working values of a BCHCHK of v (R22). -/
def State.setBch (s : State) (v : Word) : State :=
  s.setWork { s.work with w := bchWork v, chk := bchChk v }

/-- BCHCHK: refused outside its contract (R87). -/
def execBchchk (v : Word) (s : State) : Answer :=
  if lowBitsClear v then .next ((s.setBch v).setResult (.word (bchchk v)))
  else .refused .bchOperandLowBits

/-- EVENPAR: refused when bit 0 of the operand is set (R84, U3). -/
def execEvenpar (u : Word) (s : State) : Answer :=
  if u.getLsbD 0 then .refused .parityBitSet
  else .next (s.setResult (.word (evenpar u)))

/-- BCHENC: refused outside its contract (R87). -/
def execBchenc (v : Word) (s : State) : Answer :=
  if lowBitsClear v then .next ((s.setBch v).setResult (.word (bchenc v)))
  else .refused .bchOperandLowBits

end Sys2Proof.Machine
end

