-- ==== Sys2Proof/Machine/MessageEncoder.lean ====
section
/-! DEFINITION. MessageEncoder: CHARNIB, REV4, MSGCW, MSGENC (43_message_encoder.md R100 to R108). -/

namespace Sys2Proof.Machine

/-- CHARNIB(c): the symbol value of a character code (R101, R102). -/
def charnib (c : Byte) : BitVec 4 :=
  if 0x30 ≤ c.toNat ∧ c.toNat ≤ 0x39 then (c - 0x30#8).setWidth 4
  else if c = 0x2A#8 then 10#4
  else if c = 0x55#8 then 11#4
  else if c = 0x20#8 then 12#4
  else if c = 0x2D#8 then 13#4
  else if c = 0x28#8 then 14#4
  else if c = 0x29#8 then 15#4
  else 10#4

/-- REV4(x): the four bits in reverse order (R103). -/
def rev4 (x : BitVec 4) : BitVec 4 :=
  ((x &&& 1#4) <<< 3) ||| ((x &&& 2#4) <<< 1) ||| ((x &&& 4#4) >>> 1) ||| ((x &&& 8#4) >>> 3)

/-- The nibble of character j of a group, the zero fill beyond its end (R104, R105). -/
def groupNibble (group : List Byte) (j : Nat) : BitVec 4 :=
  match group[j]? with
  | some c => rev4 (charnib c)
  | none => 0#4

/-- The 20-bit payload of a group, built nibble by nibble (R104). -/
def groupPayload (group : List Byte) : BitVec 20 :=
  [0, 1, 2, 3, 4].foldl (fun payload j => (payload <<< 4) ||| (groupNibble group j).setWidth 20) 0#20

/-- The operand of BCHENC: the type flag and the payload in bits 30..11 (R104). -/
def groupOperand (group : List Byte) : Word :=
  Config.msgFlag ||| ((groupPayload group).setWidth 32 <<< 11)

/-- MSGCW of a group (R104). -/
def messageCodeword (group : List Byte) : Word :=
  bchenc (groupOperand group)

/-- The number of codewords for n characters, `ceil(n / 5)` (R106). -/
def codewordCount (n : Nat) : Nat :=
  (n + 4) / 5

/-- Group i of a text: up to five characters from index 5*i (R106). -/
def textGroup (text : List Byte) (i : Nat) : List Byte :=
  (text.drop (5 * i)).take 5

/-- The codewords of a text in order (R106). -/
def messageCodewords (text : List Byte) : List Word :=
  (List.range (codewordCount text.length)).map fun i => messageCodeword (textGroup text i)

/-- CHARNIB alone; total on all 256 codes (R101). -/
def execCharnib (c : Byte) (s : State) : Answer :=
  .next (s.setResult (.symbol (charnib c)))

/-- REV4 alone (R103). -/
def execRev4 (x : BitVec 4) (s : State) : Answer :=
  .next (s.setResult (.nibble (rev4 x)))

/-- MSGCW: refused on 0 or more than 5 characters (U5). -/
def execMsgcw (group : List Byte) (s : State) : Answer :=
  if 1 ≤ group.length ∧ group.length ≤ 5 then .next (s.setResult (.word (messageCodeword group)))
  else .refused .groupLength

/-- MSGENC: refused on more than 40 characters (R108). -/
def execMsgenc (text : List Byte) (s : State) : Answer :=
  if text.length ≤ Config.textMax then
    .next (s.setWork { s.work with m := codewordCount text.length, mcw := messageCodewords text })
  else .refused .textNotTruncated

end Sys2Proof.Machine
end

