-- ==== Sys2Proof/Machine/Symbols.lean ====
section
/-! DEFINITION. The symbol rows of the table (30_encoding.md R53 to R55, 43_message_encoder.md R102): a character's
row gives its symbol value, its nibble and the codeword it makes alone; a nibble's row gives the symbol value and the
character it stands for. Both are answered in the model's own record (log 13). -/

namespace Sys2Proof.Machine

/-- The row of the symbol table for the character code c (R55). -/
def lookUpCharacter (c : Byte) (s : State) : Answer :=
  .next (s.setResult (.character (charnib c) (rev4 (charnib c)) (messageCodeword [c])))

/-- The row of the nibble table for x: "symbol_value = REV4(nibble)" (R53), and the listed character (R55). -/
def lookUpNibble (x : BitVec 4) (s : State) : Answer :=
  .next (s.setResult (.nibbleRead (rev4 x) (symbolCharacter (rev4 x))))

/-- SYM_0 (R55). -/
def execSym0 (s : State) : Answer := lookUpCharacter 0x30#8 s

/-- SYM_1 (R55). -/
def execSym1 (s : State) : Answer := lookUpCharacter 0x31#8 s

/-- SYM_2 (R55). -/
def execSym2 (s : State) : Answer := lookUpCharacter 0x32#8 s

/-- SYM_3 (R55). -/
def execSym3 (s : State) : Answer := lookUpCharacter 0x33#8 s

/-- SYM_4 (R55). -/
def execSym4 (s : State) : Answer := lookUpCharacter 0x34#8 s

/-- SYM_5 (R55). -/
def execSym5 (s : State) : Answer := lookUpCharacter 0x35#8 s

/-- SYM_6 (R55). -/
def execSym6 (s : State) : Answer := lookUpCharacter 0x36#8 s

/-- SYM_7 (R55). -/
def execSym7 (s : State) : Answer := lookUpCharacter 0x37#8 s

/-- SYM_8 (R55). -/
def execSym8 (s : State) : Answer := lookUpCharacter 0x38#8 s

/-- SYM_9 (R55). -/
def execSym9 (s : State) : Answer := lookUpCharacter 0x39#8 s

/-- SYM_STAR (R55). -/
def execSymStar (s : State) : Answer := lookUpCharacter 0x2A#8 s

/-- SYM_U (R55). -/
def execSymU (s : State) : Answer := lookUpCharacter 0x55#8 s

/-- SYM_SPACE (R55). -/
def execSymSpace (s : State) : Answer := lookUpCharacter 0x20#8 s

/-- SYM_MINUS (R55). -/
def execSymMinus (s : State) : Answer := lookUpCharacter 0x2D#8 s

/-- SYM_LPAREN (R55). -/
def execSymLparen (s : State) : Answer := lookUpCharacter 0x28#8 s

/-- SYM_RPAREN (R55). -/
def execSymRparen (s : State) : Answer := lookUpCharacter 0x29#8 s

/-- SYM_DEFAULT (R102): any code that is not listed. -/
def execSymDefault (c : Byte) (s : State) : Answer := lookUpCharacter c s

/-- NIB_0 (R53). -/
def execNib0 (s : State) : Answer := lookUpNibble 0x0#4 s

/-- NIB_8 (R53). -/
def execNib8 (s : State) : Answer := lookUpNibble 0x8#4 s

/-- NIB_4 (R53). -/
def execNib4 (s : State) : Answer := lookUpNibble 0x4#4 s

/-- NIB_C (R53). -/
def execNibC (s : State) : Answer := lookUpNibble 0xC#4 s

/-- NIB_2 (R53). -/
def execNib2 (s : State) : Answer := lookUpNibble 0x2#4 s

/-- NIB_A (R53). -/
def execNibA (s : State) : Answer := lookUpNibble 0xA#4 s

/-- NIB_6 (R53). -/
def execNib6 (s : State) : Answer := lookUpNibble 0x6#4 s

/-- NIB_E (R53). -/
def execNibE (s : State) : Answer := lookUpNibble 0xE#4 s

/-- NIB_1 (R53). -/
def execNib1 (s : State) : Answer := lookUpNibble 0x1#4 s

/-- NIB_9 (R53). -/
def execNib9 (s : State) : Answer := lookUpNibble 0x9#4 s

/-- NIB_5 (R53). -/
def execNib5 (s : State) : Answer := lookUpNibble 0x5#4 s

/-- NIB_D (R53). -/
def execNibD (s : State) : Answer := lookUpNibble 0xD#4 s

/-- NIB_3 (R53). -/
def execNib3 (s : State) : Answer := lookUpNibble 0x3#4 s

/-- NIB_B (R53). -/
def execNibB (s : State) : Answer := lookUpNibble 0xB#4 s

/-- NIB_7 (R53). -/
def execNib7 (s : State) : Answer := lookUpNibble 0x7#4 s

/-- NIB_F (R53). -/
def execNibF (s : State) : Answer := lookUpNibble 0xF#4 s

end Sys2Proof.Machine
end

