-- ==== Sys2Proof/Machine/AddressCodeword.lean ====
section
/-! DEFINITION. AddressCodewordBuilder: ADDRCW (42_address_codeword.md R90 to R96). -/

namespace Sys2Proof.Machine

/-- The frame, the low three address bits (R91). -/
def addressFrame (address : BitVec 32) : BitVec 3 :=
  (address &&& 0x7#32).setWidth 3

/-- The address slot: twice the frame (R91, R92). -/
def addressSlot (address : BitVec 32) : Nat :=
  (addressFrame address).toNat * 2

/-- The 20-bit payload `((address >> 3) << 2) | (functionCode & 0x3)` (R51, R91). -/
def addressPayload (address : BitVec 32) (functionCode : BitVec 8) : BitVec 20 :=
  (((address >>> 3) <<< 2) ||| (functionCode.setWidth 32 &&& 0x3#32)).setWidth 20

/-- The operand of BCHENC: the payload in bits 30..11 (R91). -/
def addressOperand (address : BitVec 32) (functionCode : BitVec 8) : Word :=
  (addressPayload address functionCode).setWidth 32 <<< 11

/-- The address codeword (R91). -/
def addressCodeword (address : BitVec 32) (functionCode : BitVec 8) : Word :=
  bchenc (addressOperand address functionCode)

/-- ADDRCW: refused on operands VALIDATE rejects (R96). -/
def execAddrcw (address : BitVec 32) (functionCode : BitVec 8) (s : State) : Answer :=
  if legalAddress address && legalFunctionCode functionCode then
    .next (s.setWork { s.work with
      frame := addressFrame address
      aslot := addressSlot address
      acw := addressCodeword address functionCode })
  else .refused .addressNotValidated

end Sys2Proof.Machine
end

