-- ==== Sys2Proof/Machine/BatchAssembler.lean ====
section
/-! DEFINITION. BatchAssembler: BATCHINIT, PLACE, ASSEMBLE, DISPOSE (44_batch_assembler.md R115 to R130). -/

namespace Sys2Proof.Machine

/-- All 32 slots idle (R116). -/
def idleSlots : Slots :=
  Vector.replicate 32 Config.idle

/-- PLACE(k, v): a write above index 31 is dropped (R117, R33). -/
def placeSlot (k : Nat) (v : Word) (slots : Slots) : Slots :=
  if h : k ≤ 31 then slots.set k v (by omega) else slots

/-- The message codewords from `cursor` on (R119). -/
def placeAll : Nat → List Word → Slots → Slots
  | _, [], slots => slots
  | cursor, v :: vs, slots => placeAll (cursor + 1) vs (placeSlot cursor v slots)

/-- The slot array after ASSEMBLE (R119). -/
def assembleSlots (aslot : Nat) (acw : Word) (mcw : List Word) : Slots :=
  placeAll (aslot + 1) mcw (placeSlot aslot acw idleSlots)

/-- The highest used slot index (R120). -/
def highestSlot (aslot m : Nat) : Nat :=
  min (aslot + m) 31

/-- Batch 2 overwritten with Batch 1, slot by slot (R127). -/
def copyFirstBatch (slots : Slots) : Slots :=
  Vector.ofFn fun k : Fin 32 => slots[k.val % 16]'(by omega)

/-- DISPOSE(highest, policy, B): the batch count and the slot array (R125 to R130). The last branch is LeaveIdle,
whose count of 1 is the spec's decision (R129, log 12). -/
def disposeSlots (highest : Nat) (batch2Policy : BitVec 8) (slots : Slots) : BatchCount × Slots :=
  if 16 ≤ highest then (.two, slots)
  else if batch2Policy = 0#8 then (.one, slots)
  else if batch2Policy = 1#8 then (.two, copyFirstBatch slots)
  else (.one, slots)

/-- BATCHINIT (R116). -/
def execBatchinit (s : State) : Answer :=
  .next (s.setWork { s.work with slots := idleSlots })

/-- PLACE (R117). -/
def execPlace (k : BitVec 6) (v : Word) (s : State) : Answer :=
  .next (s.setWork { s.work with slots := placeSlot k.toNat v s.work.slots })

/-- ASSEMBLE (R119): the slot array, the cursor after the last placement, the highest used slot. -/
def execAssemble (aslot : BitVec 4) (acw : Word) (mcw : List Word) (s : State) : Answer :=
  .next (s.setWork { s.work with
    slots := assembleSlots aslot.toNat acw mcw
    cursor := aslot.toNat + 1 + mcw.length
    highest := highestSlot aslot.toNat mcw.length })

/-- DISPOSE (R125): with highest below 16 it looks at the policy, which must be a validated one; at 16 and above it
does not look (R128). -/
def execDispose (highest : BitVec 5) (batch2Policy : BitVec 8) (s : State) : Answer :=
  if 16 ≤ highest.toNat || legalPolicy batch2Policy then
    .next (s.setWork { s.work with
      count := (disposeSlots highest.toNat batch2Policy s.work.slots).1
      slots := (disposeSlots highest.toNat batch2Policy s.work.slots).2 })
  else .refused .policyNotValidated

end Sys2Proof.Machine
end

