-- ==== Sys2Proof/Machine/PostProcessor.lean ====
section
/-! DEFINITION. PostProcessor: INVERT and SERIALIZE (45_postprocessor.md R135 to R140). SERIALIZE's bytes are
`serialize` of Machine/Ops.lean, which the byte view uses as well. -/

namespace Sys2Proof.Machine

/-- INVERT(B, invertPhase): every one of the 32 words complemented, or none (R136, R138). -/
def invertSlots (invertPhase : Bool) (slots : Slots) : Slots :=
  if invertPhase then Vector.ofFn fun k : Fin 32 => slots[k.val] ^^^ Config.inv else slots

/-- INVERT (R136). -/
def execInvert (invertPhase : Bool) (s : State) : Answer :=
  .next (s.setWork { s.work with slots := invertSlots invertPhase s.work.slots })

/-- SERIALIZE (R139). -/
def execSerialize (v : Word) (s : State) : Answer :=
  .next (s.setResult (.bytes (serialize v)))

end Sys2Proof.Machine
end

