-- ==== Sys2Proof/Machine/Validator.lean ====
section
/-! DEFINITION. ParameterValidator: VALIDATE (40_validator.md R70 to R76). -/

namespace Sys2Proof.Machine

/-- The three checks in their order; the first that fails decides (R70, R74). -/
def validate (address : BitVec 32) (functionCode batch2Policy : BitVec 8) : Verdict :=
  if !legalAddress address then .err .invalidAddress
  else if !legalFunctionCode functionCode then .err .invalidFunctionCode
  else if !legalPolicy batch2Policy then .err .invalidBatch2Policy
  else .ok

/-- VALIDATE alone: it writes no state of the block (R70), so its answer stands in the model's own record. -/
def execValidate (address : BitVec 32) (functionCode batch2Policy : BitVec 8) (s : State) : Answer :=
  .next (s.setResult (.verdict (validate address functionCode batch2Policy)))

end Sys2Proof.Machine
end

