-- ==== Sys2Proof/Machine/Transaction.lean ====
section
/-! DEFINITION. The ENCODE transaction: TRUNCATE and ENCODE (46_encode_transaction.md R144 to R151). -/

namespace Sys2Proof.Machine

/-- TRUNCATE(L) = min(L, 40) (R144). -/
def truncateLen (len : Nat) : Nat :=
  min len Config.textMax

/-- TRUNCATE alone (R144). -/
def execTruncate (len : BitVec 8) (s : State) : Answer :=
  .next (s.setWork { s.work with n := truncateLen len.toNat })

/-- The slot array and the count of a validated request after DISPOSE, before inversion (R145). -/
def disposedSlots (q : Request) : BatchCount × Slots :=
  let text := q.text.take (truncateLen q.text.length)
  let acw := addressCodeword q.address q.functionCode
  let aslot := addressSlot q.address
  let mcw := messageCodewords text
  disposeSlots (highestSlot aslot mcw.length) q.batch2Policy (assembleSlots aslot acw mcw)

/-- ENCODE(REQ) as one atomic step on a complete request (R145, R148): an error is raised before anything else runs,
otherwise RSP is replaced by Ok; no call-scoped value survives. -/
def transactionOn (q : Request) (s : State) : State :=
  match validate q.address q.functionCode q.batch2Policy with
  | .err kind => finish (raise kind s)
  | .ok =>
    finish (respond (disposedSlots q).1 (invertSlots q.invertPhase (disposedSlots q).2) s)

/-- A start on REQ as it stands: refused unless the request is complete (R151). -/
def startTransaction (s : State) : Answer :=
  match readRequest s.req with
  | .ok q => .next (transactionOn q s)
  | .error why => .refused why

/-- ENCODE with all its arguments present (R63, R145): the host presents the request and starts. A text longer than
TEXT_LEN_MAX cannot be presented (R15, R151). -/
def execEncode (address : BitVec 32) (functionCode batch2Policy : BitVec 8) (invertPhase : Bool) (text : List Byte)
    (s : State) : Answer :=
  if text.length ≤ Config.textLenMax then
    startTransaction (presentRequest ⟨address, functionCode, batch2Policy, invertPhase, text⟩ s)
  else .refused .textLenAboveMax

end Sys2Proof.Machine
end

