-- ==== Sys2Proof/Machine/Dispatch.lean ====
section
/-! DEFINITION. One arm per row of spec/opcode_table.json. -/

namespace Sys2Proof.Machine

def exec (i : Instr) (s : State) : Host.Outcome State Fault Refusal :=
  match i with
  | .encode address functionCode batch2Policy invertPhase text => Sys2Proof.Machine.execEncode address functionCode batch2Policy invertPhase text s
  | .validate address functionCode batch2Policy => Sys2Proof.Machine.execValidate address functionCode batch2Policy s
  | .truncate len => Sys2Proof.Machine.execTruncate len s
  | .bchchk v => Sys2Proof.Machine.execBchchk v s
  | .evenpar u => Sys2Proof.Machine.execEvenpar u s
  | .bchenc v => Sys2Proof.Machine.execBchenc v s
  | .addrcw address functionCode => Sys2Proof.Machine.execAddrcw address functionCode s
  | .charnib c => Sys2Proof.Machine.execCharnib c s
  | .rev4 x => Sys2Proof.Machine.execRev4 x s
  | .msgcw group => Sys2Proof.Machine.execMsgcw group s
  | .msgenc text => Sys2Proof.Machine.execMsgenc text s
  | .batchinit => Sys2Proof.Machine.execBatchinit s
  | .place k v => Sys2Proof.Machine.execPlace k v s
  | .assemble aslot acw mcw => Sys2Proof.Machine.execAssemble aslot acw mcw s
  | .dispose highest batch2Policy => Sys2Proof.Machine.execDispose highest batch2Policy s
  | .invert invertPhase => Sys2Proof.Machine.execInvert invertPhase s
  | .serialize v => Sys2Proof.Machine.execSerialize v s
  | .cwAddr addrHi fc check parity => Sys2Proof.Machine.execCwAddr addrHi fc check parity s
  | .cwMsg n0 n1 n2 n3 n4 check parity => Sys2Proof.Machine.execCwMsg n0 n1 n2 n3 n4 check parity s
  | .cwIdle => Sys2Proof.Machine.execCwIdle s
  | .cwIdleInverted => Sys2Proof.Machine.execCwIdleInverted s
  | .cwAddrInverted addrHi fc check parity => Sys2Proof.Machine.execCwAddrInverted addrHi fc check parity s
  | .cwMsgInverted n0 n1 n2 n3 n4 check parity => Sys2Proof.Machine.execCwMsgInverted n0 n1 n2 n3 n4 check parity s
  | .fcTimesync => Sys2Proof.Machine.execFcTimesync s
  | .fcDown => Sys2Proof.Machine.execFcDown s
  | .fcIllegal2 => Sys2Proof.Machine.execFcIllegal2 s
  | .fcUp => Sys2Proof.Machine.execFcUp s
  | .fcIllegal4To255 value => Sys2Proof.Machine.execFcIllegal4To255 value s
  | .polTruncate => Sys2Proof.Machine.execPolTruncate s
  | .polCopybatch1 => Sys2Proof.Machine.execPolCopybatch1 s
  | .polLeaveidle => Sys2Proof.Machine.execPolLeaveidle s
  | .polIllegal3To255 value => Sys2Proof.Machine.execPolIllegal3To255 value s
  | .stOk => Sys2Proof.Machine.execStOk s
  | .stInvalidAddress => Sys2Proof.Machine.execStInvalidAddress s
  | .stInvalidFunctionCode => Sys2Proof.Machine.execStInvalidFunctionCode s
  | .stInvalidBatch2Policy => Sys2Proof.Machine.execStInvalidBatch2Policy s
  | .batchcount1 => Sys2Proof.Machine.execBatchcount1 s
  | .batchcount2 => Sys2Proof.Machine.execBatchcount2 s
  | .invertFalse => Sys2Proof.Machine.execInvertFalse s
  | .invertTrue => Sys2Proof.Machine.execInvertTrue s
  | .sym0 => Sys2Proof.Machine.execSym0 s
  | .sym1 => Sys2Proof.Machine.execSym1 s
  | .sym2 => Sys2Proof.Machine.execSym2 s
  | .sym3 => Sys2Proof.Machine.execSym3 s
  | .sym4 => Sys2Proof.Machine.execSym4 s
  | .sym5 => Sys2Proof.Machine.execSym5 s
  | .sym6 => Sys2Proof.Machine.execSym6 s
  | .sym7 => Sys2Proof.Machine.execSym7 s
  | .sym8 => Sys2Proof.Machine.execSym8 s
  | .sym9 => Sys2Proof.Machine.execSym9 s
  | .symStar => Sys2Proof.Machine.execSymStar s
  | .symU => Sys2Proof.Machine.execSymU s
  | .symSpace => Sys2Proof.Machine.execSymSpace s
  | .symMinus => Sys2Proof.Machine.execSymMinus s
  | .symLparen => Sys2Proof.Machine.execSymLparen s
  | .symRparen => Sys2Proof.Machine.execSymRparen s
  | .symDefault c => Sys2Proof.Machine.execSymDefault c s
  | .nib0 => Sys2Proof.Machine.execNib0 s
  | .nib8 => Sys2Proof.Machine.execNib8 s
  | .nib4 => Sys2Proof.Machine.execNib4 s
  | .nibC => Sys2Proof.Machine.execNibC s
  | .nib2 => Sys2Proof.Machine.execNib2 s
  | .nibA => Sys2Proof.Machine.execNibA s
  | .nib6 => Sys2Proof.Machine.execNib6 s
  | .nibE => Sys2Proof.Machine.execNibE s
  | .nib1 => Sys2Proof.Machine.execNib1 s
  | .nib9 => Sys2Proof.Machine.execNib9 s
  | .nib5 => Sys2Proof.Machine.execNib5 s
  | .nibD => Sys2Proof.Machine.execNibD s
  | .nib3 => Sys2Proof.Machine.execNib3 s
  | .nibB => Sys2Proof.Machine.execNibB s
  | .nib7 => Sys2Proof.Machine.execNib7 s
  | .nibF => Sys2Proof.Machine.execNibF s

end Sys2Proof.Machine
end

