-- ==== Sys2Proof/Machine/HostPort.lean ====
section
/-! DEFINITION. What the host may do at the interface between transactions: reset (70_reset_and_hazards.md R180),
writes to REQ (10_state.md R23, R181), the start of ENCODE (46_encode_transaction.md R151), and reads of RSP under its
tag (R17, 20_memory.md R35 to R38). A read changes nothing of the block (R38); its answer stands in the model's own
record. -/

namespace Sys2Proof.Machine

/-- Reset: everything as after reset; the host's script is not the block's and stays (R180, log 8). -/
def resetBlock (s : State) : Answer :=
  .next (State.reset.setPending s.pending)

/-- The host writes `REQ.address` (R11). -/
def writeAddress (v : BitVec 32) (s : State) : Answer :=
  .next (s.setReq { s.req with address := some v })

/-- The host writes `REQ.textLen` (R15). -/
def writeTextLen (len : Nat) (s : State) : Answer :=
  .next (s.setReq { s.req with textLen := some len })

/-- The host writes `REQ.text[i]` (R15, R31): TEXT has no cell at or above TEXT_LEN_MAX. -/
def writeChar (i : Nat) (c : Byte) (s : State) : Answer :=
  if i < Config.textLenMax then .next (s.setReq { s.req with text := Memory.write s.req.text i c })
  else .fault .noSuchTextIndex

/-- The answer of a read, refused where the tag carries no such field (R17). -/
def answerRead (r : Option Result) (s : State) : Answer :=
  match r with
  | some r => .next (s.setResult r)
  | none => .refused .fieldNotCarried

/-- A batch of RSP, present under Ok only (R17, R20). -/
def batchOf : Rsp → BatchSel → Option Batch
  | .ok _ b1 _, .first => some b1
  | .ok _ _ b2, .second => some b2
  | .idle, _ => none
  | .err _, _ => none

/-- A read of one codeword by slot 0..15 (R20, U9). -/
def readWord (b : BatchSel) (i : Nat) (s : State) : Answer :=
  match batchOf s.rsp b with
  | none => .refused .fieldNotCarried
  | some batch => if h : i < 16 then .next (s.setResult (.word batch[i])) else .refused .outsideView

/-- A read of n bytes of OUT1 or OUT2 from offset a on, at any offset and width within 0..63 (R36, R37). DESIGN CHOICE:
a read of no bytes, on which the spec is silent, is answered with the empty list at every offset up to 64 (log 20). -/
def readBytes (b : BatchSel) (a n : Nat) (s : State) : Answer :=
  match batchOf s.rsp b with
  | none => .refused .fieldNotCarried
  | some batch =>
    if a + n ≤ 64 then .next (s.setResult (.bytes (((byteView batch).drop a).take n))) else .refused .outsideView

/-- One action of the host at the port. -/
def runPort (a : PortAction) (s : State) : Answer :=
  match a with
  | .reset => resetBlock s
  | .writeAddress v => writeAddress v s
  | .writeFunctionCode v => writeFunctionCode v s
  | .writeBatch2Policy v => writeBatch2Policy v s
  | .writeInvertPhase b => writeInvertPhase b s
  | .writeTextLen len => writeTextLen len s
  | .writeChar i c => writeChar i c s
  | .start => startTransaction s
  | .readValid => answerRead (some (.valid (validBit s.rsp))) s
  | .readStatus => answerRead ((statusOf s.rsp).map .status) s
  | .readBatchCount => answerRead ((batchCountOf s.rsp).map .batchCount) s
  | .readWord b i => readWord b i s
  | .readBytes b a n => readBytes b a n s

/-- The instruction the issued bytes are, or the refusal that names why they are none. -/
def fetchInstr (sel : Selector) (bytes : List Byte) : Except Refusal Instr :=
  match decode sel bytes with
  | .ok (i, _) => .ok i
  | .error why => .error (.undecodable why)

/-- The script entry that issues a bare word of the table (log 7); where the word has no place, an entry whose bytes
are no instruction. -/
def bareIssue (nbits w : Nat) : HostAction :=
  match bareSelector nbits w with
  | some sel => .issue sel (bareBytes nbits w)
  | none => .issue .encode []

end Sys2Proof.Machine
end

