-- ==== Sys2Proof/Machine/Step.lean ====
section
/-! DEFINITION. One step of the machine: the host's next action. The block fetches no instructions (10_state.md
R14); what stands in the place of a fetch is the host's script in State (log 8). -/

namespace Sys2Proof.Machine

/-- With nothing left to do the block idles and nothing changes (R41). A port action runs at the port; an issued row
is decoded at its place and run by exec. The action is taken off the script first. -/
def step (s : State) : Host.Outcome State Fault Refusal :=
  match s.pending with
  | [] => .next s
  | .port a :: rest => runPort a (s.setPending rest)
  | .issue sel bytes :: rest =>
    match fetchInstr sel bytes with
    | .ok i => exec i (s.setPending rest)
    | .error why => .refused why

/-- The bare word issued as the host's next action. -/
def State.withFetchWord (s : State) (nbits w : Nat) : State :=
  s.setPending (bareIssue nbits w :: s.pending)

end Sys2Proof.Machine
end

