-- ==== Sys2Proof/Safety.lean ====
section
/-! DEFINITION. The terms in which claims about runs are made: which words are codewords of the code, the invariant
every step keeps, which instructions start a transaction or write REQ, and which call-scoped value each unit may
write (10_state.md R22, R28). -/

namespace Sys2Proof.Machine

/-- w is a codeword: its check field and parity bit are the ones BCHENC gives its top 21 bits (R80, R85). -/
def isCodeword (w : Word) : Bool :=
  bchenc (w &&& 0xFFFFF800#32) = w

/-- The whole answer is a next state. -/
def completes : Answer → Bool
  | .next _ => true
  | .fault _ => false
  | .refused _ => false

/-- A run of k steps is safe when no step of it stops. -/
def safeRun (k : Nat) (s : State) : Bool :=
  completes (core.run k s)

/-- The invariant of the machine. -/
structure Inv (s : State) : Prop where
  /-- TEXT keeps its canonical form (R31). -/
  textCanonical : Memory.wf s.req.text = true
  /-- TEXT has no cell at or above TEXT_LEN_MAX (R15). -/
  textInRange : ∀ cell ∈ s.req.text, cell.1 < Config.textLenMax
  /-- Every word of a response is a codeword, inverted or not (R49, R50, R85, R149). -/
  wordsAreCodewords : ∀ c b1 b2, s.rsp = .ok c b1 b2 →
    ∀ (i : Nat) (h : i < 16), isCodeword b1[i] = true ∧ isCodeword b2[i] = true
  /-- With a count of 1, Batch 2 is all idle or all complemented idle (R19). -/
  secondBatchUnused : ∀ b1 b2, s.rsp = .ok .one b1 b2 →
    (∀ (i : Nat) (h : i < 16), b2[i] = Config.idle) ∨ (∀ (i : Nat) (h : i < 16), b2[i] = ~~~Config.idle)

/-- ENCODE, the only operation that starts a transaction (R60). -/
def startsTransaction : Instr → Bool
  | .encode _ _ _ _ _ => true
  | .validate _ _ _ | .truncate _ | .bchchk _ | .evenpar _ | .bchenc _ | .addrcw _ _ | .charnib _ | .rev4 _ => false
  | .msgcw _ | .msgenc _ | .batchinit | .place _ _ | .assemble _ _ _ | .dispose _ _ | .invert _ | .serialize _ => false
  | .cwAddr _ _ _ _ | .cwMsg _ _ _ _ _ _ _ | .cwIdle | .cwIdleInverted | .cwAddrInverted _ _ _ _ => false
  | .cwMsgInverted _ _ _ _ _ _ _ | .fcTimesync | .fcDown | .fcIllegal2 | .fcUp | .fcIllegal4To255 _ => false
  | .polTruncate | .polCopybatch1 | .polLeaveidle | .polIllegal3To255 _ | .stOk | .stInvalidAddress => false
  | .stInvalidFunctionCode | .stInvalidBatch2Policy | .batchcount1 | .batchcount2 | .invertFalse | .invertTrue => false
  | .sym0 | .sym1 | .sym2 | .sym3 | .sym4 | .sym5 | .sym6 | .sym7 | .sym8 | .sym9 | .symStar | .symU | .symSpace => false
  | .symMinus | .symLparen | .symRparen | .symDefault _ | .nib0 | .nib8 | .nib4 | .nibC | .nib2 | .nibA | .nib6 => false
  | .nibE | .nib1 | .nib9 | .nib5 | .nibD | .nib3 | .nibB | .nib7 | .nibF => false

/-- The rows that are the host's write of one field of REQ (R12, R13, R16). -/
def writesRequest : Instr → Bool
  | .fcTimesync | .fcDown | .fcIllegal2 | .fcUp | .fcIllegal4To255 _ => true
  | .polTruncate | .polCopybatch1 | .polLeaveidle | .polIllegal3To255 _ => true
  | .invertFalse | .invertTrue => true
  | .encode _ _ _ _ _ | .validate _ _ _ | .truncate _ | .bchchk _ | .evenpar _ | .bchenc _ | .addrcw _ _ => false
  | .charnib _ | .rev4 _ | .msgcw _ | .msgenc _ | .batchinit | .place _ _ | .assemble _ _ _ | .dispose _ _ => false
  | .invert _ | .serialize _ | .cwAddr _ _ _ _ | .cwMsg _ _ _ _ _ _ _ | .cwIdle | .cwIdleInverted => false
  | .cwAddrInverted _ _ _ _ | .cwMsgInverted _ _ _ _ _ _ _ | .stOk | .stInvalidAddress | .stInvalidFunctionCode => false
  | .stInvalidBatch2Policy | .batchcount1 | .batchcount2 | .sym0 | .sym1 | .sym2 | .sym3 | .sym4 | .sym5 | .sym6 => false
  | .sym7 | .sym8 | .sym9 | .symStar | .symU | .symSpace | .symMinus | .symLparen | .symRparen | .symDefault _ => false
  | .nib0 | .nib8 | .nib4 | .nibC | .nib2 | .nibA | .nib6 | .nibE | .nib1 | .nib9 | .nib5 | .nibD | .nib3 => false
  | .nibB | .nib7 | .nibF => false

/-- The names of R22. -/
inductive WorkField where
  | n | frame | aslot | acw | m | mcw | slots | cursor | highest | count | w | chk
  deriving DecidableEq, Repr

/-- The column "written by" of R22, for the operations executed alone (BCHENC runs a BCHCHK, R28). -/
def unitWrites : Instr → List WorkField
  | .truncate _ => [.n]
  | .addrcw _ _ => [.frame, .aslot, .acw]
  | .msgenc _ => [.m, .mcw]
  | .batchinit => [.slots]
  | .place _ _ => [.slots]
  | .assemble _ _ _ => [.slots, .cursor, .highest]
  | .dispose _ _ => [.slots, .count]
  | .invert _ => [.slots]
  | .bchchk _ => [.w, .chk]
  | .bchenc _ => [.w, .chk]
  | .encode _ _ _ _ _ | .validate _ _ _ | .evenpar _ | .charnib _ | .rev4 _ | .msgcw _ | .serialize _ => []
  | .cwAddr _ _ _ _ | .cwMsg _ _ _ _ _ _ _ | .cwIdle | .cwIdleInverted | .cwAddrInverted _ _ _ _ => []
  | .cwMsgInverted _ _ _ _ _ _ _ | .fcTimesync | .fcDown | .fcIllegal2 | .fcUp | .fcIllegal4To255 _ => []
  | .polTruncate | .polCopybatch1 | .polLeaveidle | .polIllegal3To255 _ | .stOk | .stInvalidAddress => []
  | .stInvalidFunctionCode | .stInvalidBatch2Policy | .batchcount1 | .batchcount2 | .invertFalse | .invertTrue => []
  | .sym0 | .sym1 | .sym2 | .sym3 | .sym4 | .sym5 | .sym6 | .sym7 | .sym8 | .sym9 | .symStar | .symU | .symSpace => []
  | .symMinus | .symLparen | .symRparen | .symDefault _ | .nib0 | .nib8 | .nib4 | .nibC | .nib2 | .nibA | .nib6 => []
  | .nibE | .nib1 | .nib9 | .nib5 | .nibD | .nib3 | .nibB | .nib7 | .nibF => []

/-- Two records of call-scoped values agree on one of them. -/
def sameWorkField : WorkField → Work → Work → Prop
  | .n, a, b => a.n = b.n
  | .frame, a, b => a.frame = b.frame
  | .aslot, a, b => a.aslot = b.aslot
  | .acw, a, b => a.acw = b.acw
  | .m, a, b => a.m = b.m
  | .mcw, a, b => a.mcw = b.mcw
  | .slots, a, b => a.slots = b.slots
  | .cursor, a, b => a.cursor = b.cursor
  | .highest, a, b => a.highest = b.highest
  | .count, a, b => a.count = b.count
  | .w, a, b => a.w = b.w
  | .chk, a, b => a.chk = b.chk

end Sys2Proof.Machine
end

