-- ==== Sys2Proof/Certificates/Slice0/Obligations.lean ====
section
/-! DEFINITION. The statements for the provers. Each docstring names the rule of the spec it formalises; a clause that
rests on a decision of the spec or on a choice of the model says so. The rules give a unit operation results and no
place for them: that a unit executed alone shows its results in `work` and `result` is the model's choice throughout
(log 8, 9, 11). -/

open Sys2Proof Sys2Proof.Machine

/-! ## The step, the decoder and the encoder -/

/-- R60, R64 and log 4, 8: an issued row is decoded at its place and run by exec, with the action taken off the
script; bytes that are no instruction are refused by name; with nothing pending the block idles (R41). -/
def Obligations.StepRunsTheIssuedInstruction : Prop :=
  (∀ (s : State) (sel : Selector) (bytes : List Byte) (rest : List HostAction) (i : Instr) (tail : List Byte),
    s.pending = .issue sel bytes :: rest → decode sel bytes = .ok (i, tail) →
    step s = exec i { s with pending := rest }) ∧
  (∀ (s : State) (sel : Selector) (bytes : List Byte) (rest : List HostAction) (why : DecodeError),
    s.pending = .issue sel bytes :: rest → decode sel bytes = .error why →
    step s = .refused (.undecodable why)) ∧
  (∀ s : State, s.pending = [] → step s = .next s)

/-- R64: a well-formed instruction of any row, encoded and decoded at its place, comes back with every operand, and
the bytes after it are left. -/
def Obligations.DecodeOfEncodeIsTheInstruction : Prop :=
  ∀ (i : Instr) (tail : List Byte), wellFormed i = true →
    decode (encode i).1 ((encode i).2 ++ tail) = .ok (i, tail)

/-- R64: what decodes is well-formed, and its encoding is exactly the place and the bytes that were read, so no two
byte strings stand for one instruction at one place. -/
def Obligations.DecodedBytesAreTheEncoding : Prop :=
  ∀ (sel : Selector) (bytes : List Byte) (i : Instr) (tail : List Byte),
    decode sel bytes = .ok (i, tail) →
    wellFormed i = true ∧ (encode i).1 = sel ∧ bytes = (encode i).2 ++ tail

/-- Words written out from the patterns of spec/opcode_table.json (R47 to R49, R56, R64) decode to the rows they
stand for. The bits of each pattern are the table's; how they are laid out in bytes with the apart operands after
them (log 6), and that the decoder is told the place (log 4), are the model's choice. -/
def Obligations.WordsOfTheTableDecodeToTheirRows : Prop :=
  -- address 0x12D450, Up, Truncate, no inversion, empty text
  decode .encode [0x00#8, 0x00#8, 0x25#8, 0xA8#8, 0xA0#8, 0x06#8, 0x00#8, 0x00#8] =
    .ok (.encode 0x12D450#32 3#8 0#8 false [], []) ∧
  -- a = 0x25A8A, s = 2, f = 1
  decode .addrcw [0x4B#8, 0x51#8, 0x49#8] = .ok (.addrcw 0x12D452#32 1#8, []) ∧
  -- 0x7A89C197 is the idle codeword
  decode .cw [0x7A#8, 0x89#8, 0xC1#8, 0x97#8] = .ok (.cwIdle, []) ∧
  -- 0xC261572C: nibbles 8 4 C 2 A, check 0x396, parity 0
  decode .cw [0xC2#8, 0x61#8, 0x57#8, 0x2C#8] = .ok (.cwMsg 8#4 4#4 0xC#4 2#4 0xA#4 0x396#10 0#1, []) ∧
  -- PLACE of 0xD370CFDE at slot 16
  decode .place [0x10#8, 0xD3#8, 0x70#8, 0xCF#8, 0xDE#8] = .ok (.place 16#6 0xD370CFDE#32, []) ∧
  -- a BCH operand with a set low bit, and a batch count of 3, are no instruction
  decode .bchenc [0x00#8, 0x00#8, 0x00#8, 0x01#8] = .error .fixedBits ∧
  decode .bc2 [0x03#8] = .error .noRow ∧
  decode .fc8 [0x05#8] = .ok (.fcIllegal4To255 5#8, [])

/-! ## Rules of the whole machine -/

/-- What an instruction leaves alone (R17, R23, R28, R88): the host's script always; the response, the address, the
length and every character of the text unless it is ENCODE; all of REQ unless it is ENCODE or a row that is the host's
write of one field; and such a row leaves the call-scoped values and the answer record alone. -/
def Obligations.OnlyEncodeChangesTheResponse : Prop :=
  ∀ (i : Instr) (s t : State), exec i s = .next t →
    t.pending = s.pending ∧
    (startsTransaction i = false →
      t.rsp = s.rsp ∧ t.req.address = s.req.address ∧ t.req.textLen = s.req.textLen ∧
      ∀ a, Memory.read t.req.text a = Memory.read s.req.text a) ∧
    (startsTransaction i = false → writesRequest i = false → t.req = s.req) ∧
    (writesRequest i = true → t.work = s.work ∧ t.result = s.result)

/-- R22 ("written by"), R28: executed alone, a unit operation changes no call-scoped value but those it is listed as
the writer of. That ADDRCW, MSGCW and MSGENC leave w and chk as they were, although they run BCHENC, is the model's
choice (log 11); that these values stand in State outside a transaction at all is log 10. -/
def Obligations.UnitsWriteOnlyTheirOwnValues : Prop :=
  ∀ (i : Instr) (s t : State) (f : WorkField), exec i s = .next t →
    startsTransaction i = false → f ∉ unitWrites i → sameWorkField f t.work s.work

/-- An instruction inside its contract answers a next state from every state, one outside is refused (R87, R96,
R108, R148, R151, R164; D22; `inContract` is the list of contracts). By inference of the model (log 16): ASSEMBLE
completes on every slot, odd ones too, and on any number of codewords, and DISPOSE completes at 16 and above for
every policy value and is refused below 16 for an unvalidated one (R125, D22). -/
def Obligations.InstructionsCompleteExactlyInContract : Prop :=
  ∀ (i : Instr) (s : State),
    (inContract i = true → ∃ t, exec i s = .next t) ∧
    (inContract i = false → ∃ why, exec i s = .refused why)

/-- R87, R96, R108 with U2 to U5 and D22: outside its contract a unit operation is refused under its own name; and
the two builders only ever make operands with bits 10..0 zero. The clause on DISPOSE is the model's inference (log
16) from R125 ("already validated") and D22. -/
def Obligations.OperandsOutsideContractAreRefused : Prop :=
  (∀ (v : Word) (s : State), v &&& 0x7FF#32 ≠ 0#32 →
    exec (.bchchk v) s = .refused .bchOperandLowBits ∧ exec (.bchenc v) s = .refused .bchOperandLowBits) ∧
  (∀ (u : Word) (s : State), u.getLsbD 0 = true → exec (.evenpar u) s = .refused .parityBitSet) ∧
  (∀ (address : BitVec 32) (functionCode : BitVec 8) (s : State),
    (address.toNat = 0 ∨ 0x1FFFFF < address.toNat ∨ functionCode.toNat ∉ [0, 1, 3]) →
    exec (.addrcw address functionCode) s = .refused .addressNotValidated) ∧
  (∀ (group : List Byte) (s : State), (group = [] ∨ 5 < group.length) →
    exec (.msgcw group) s = .refused .groupLength) ∧
  (∀ (text : List Byte) (s : State), 40 < text.length → exec (.msgenc text) s = .refused .textNotTruncated) ∧
  (∀ (highest : BitVec 5) (policy : BitVec 8) (s : State), highest.toNat < 16 → 2 < policy.toNat →
    exec (.dispose highest policy) s = .refused .policyNotValidated) ∧
  (∀ (address : BitVec 32) (functionCode : BitVec 8), addressOperand address functionCode &&& 0x7FF#32 = 0#32) ∧
  (∀ group : List Byte, groupOperand group &&& 0x7FF#32 = 0#32)

/-- The invariant of Safety.lean is kept by every step from every state that has it: TEXT stays canonical and in
range, every word of a response is a codeword of the code, a count of 1 goes with an idle Batch 2 (R19, R31, R149). -/
def Obligations.EveryStepKeepsTheInvariant : Prop :=
  ∀ s t : State, Inv s → step s = .next t → Inv t

/-- The state after reset has the invariant (R27). -/
def Obligations.ResetHasTheInvariant : Prop :=
  Inv State.reset

/-- A script of issued rows that all decode to instructions inside their contracts is run to its end without a stop
(R148 "there is no request on which the block hangs", R164). -/
def Obligations.ScriptsInContractNeverStop : Prop :=
  ∀ (s : State) (k : Nat),
    (∀ a ∈ s.pending, ∃ sel bytes i tail, a = .issue sel bytes ∧ decode sel bytes = .ok (i, tail) ∧ inContract i = true) →
    safeRun k s = true

/-! ## Reset, the request record and the response record -/

/-- R27, R180: reset gives RSP no shape but Idle and REQ no value, from any state, and leaves the host's script; after
it nothing of RSP but `valid` (0) can be read and a start is refused. The call-scoped values take the reset values of
log 10, which the spec does not give. -/
def Obligations.ResetLeavesNoRequestAndNoResponse : Prop :=
  State.reset.rsp = .idle ∧ State.reset.req = Req.unwritten ∧ State.reset.pending = [] ∧
  (∀ (s : State) (rest : List HostAction), s.pending = .port .reset :: rest →
    step s = .next { State.reset with pending := rest }) ∧
  runPort .readValid State.reset = .next { State.reset with result := .valid false } ∧
  runPort .readStatus State.reset = .refused .fieldNotCarried ∧
  runPort .readBatchCount State.reset = .refused .fieldNotCarried ∧
  (∀ b i, runPort (.readWord b i) State.reset = .refused .fieldNotCarried) ∧
  (∀ b a n, runPort (.readBytes b a n) State.reset = .refused .fieldNotCarried) ∧
  runPort .start State.reset = .refused .requestUnwritten

/-- R11 to R16, R23, R181: each write of the host reaches its own field of REQ and nothing else, in one step, for
every value of the port; a character index that TEXT does not have is a fault. -/
def Obligations.HostWritesReachTheirField : Prop :=
  ∀ (s : State) (rest : List HostAction),
    (∀ v, s.pending = .port (.writeAddress v) :: rest →
      step s = .next { s with pending := rest, req := { s.req with address := some v } }) ∧
    (∀ v, s.pending = .port (.writeFunctionCode v) :: rest →
      step s = .next { s with pending := rest, req := { s.req with functionCode := some v } }) ∧
    (∀ v, s.pending = .port (.writeBatch2Policy v) :: rest →
      step s = .next { s with pending := rest, req := { s.req with batch2Policy := some v } }) ∧
    (∀ v, s.pending = .port (.writeInvertPhase v) :: rest →
      step s = .next { s with pending := rest, req := { s.req with invertPhase := some v } }) ∧
    (∀ v, s.pending = .port (.writeTextLen v) :: rest →
      step s = .next { s with pending := rest, req := { s.req with textLen := some v } }) ∧
    (∀ k c, s.pending = .port (.writeChar k c) :: rest → k < Config.textLenMax →
      ∃ text, step s = .next { s with pending := rest, req := { s.req with text := text } } ∧
        ∀ a, Memory.read text a = if a = k then some c else Memory.read s.req.text a) ∧
    (∀ k c, s.pending = .port (.writeChar k c) :: rest → Config.textLenMax ≤ k → step s = .fault .noSuchTextIndex)

/-- R151, D11: a start answers a next state exactly when all of REQ has been written, the length is at most
TEXT_LEN_MAX and every character below it has been written; otherwise it is refused. -/
def Obligations.StartNeedsACompleteRequest : Prop :=
  ∀ (s : State) (rest : List HostAction), s.pending = .port .start :: rest →
    ((∃ t, step s = .next t) ↔
      s.req.address.isSome = true ∧ s.req.functionCode.isSome = true ∧ s.req.batch2Policy.isSome = true ∧
      s.req.invertPhase.isSome = true ∧
      ∃ len, s.req.textLen = some len ∧ len ≤ Config.textLenMax ∧ ∀ i < len, (Memory.read s.req.text i).isSome = true) ∧
    ((∃ t, step s = .next t) ∨ step s = .refused .requestUnwritten ∨ step s = .refused .textLenAboveMax)

/-- R63, R145, R181: a start on a written REQ gives the response of the call with the same arguments, and REQ keeps
what the host wrote ("the block never writes REQ", R23). -/
def Obligations.StartRunsTheWrittenRequest : Prop :=
  ∀ (s s' : State) (a : BitVec 32) (f q : BitVec 8) (v : Bool) (text : List Byte),
    s.req.address = some a → s.req.functionCode = some f → s.req.batch2Policy = some q → s.req.invertPhase = some v →
    s.req.textLen = some text.length → text.length ≤ Config.textLenMax →
    (∀ i < text.length, Memory.read s.req.text i = text[i]?) →
    ∃ t u, runPort .start s = .next t ∧ exec (.encode a f q v text) s' = .next u ∧
      t.rsp = u.rsp ∧ t = { s with rsp := t.rsp, work := Work.fresh }

/-- R17, R18, R19, R58, U8, U9: what a host reads under each of the three tags, in every state. A field the tag does
not carry, and an index outside the view, is refused. That the answer stands in `result` is log 9. -/
def Obligations.ResponseIsReadUnderItsTag : Prop :=
  (∀ s : State, s.rsp = .idle →
    runPort .readValid s = .next { s with result := .valid false } ∧
    runPort .readStatus s = .refused .fieldNotCarried ∧
    runPort .readBatchCount s = .refused .fieldNotCarried ∧
    (∀ b i, runPort (.readWord b i) s = .refused .fieldNotCarried) ∧
    (∀ b a n, runPort (.readBytes b a n) s = .refused .fieldNotCarried)) ∧
  (∀ (s : State) c b1 b2, s.rsp = .ok c b1 b2 →
    runPort .readValid s = .next { s with result := .valid true } ∧
    runPort .readStatus s = .next { s with result := .status .ok } ∧
    runPort .readBatchCount s = .next { s with result := .batchCount c } ∧
    (∀ (i : Nat) (h : i < 16), runPort (.readWord .first i) s = .next { s with result := .word b1[i] } ∧
      runPort (.readWord .second i) s = .next { s with result := .word b2[i] }) ∧
    (∀ b i, 16 ≤ i → runPort (.readWord b i) s = .refused .outsideView)) ∧
  (∀ (s : State) k, s.rsp = .err k →
    runPort .readValid s = .next { s with result := .valid true } ∧
    runPort .readStatus s = .next { s with result := .status (.err k) } ∧
    runPort .readBatchCount s = .refused .fieldNotCarried ∧
    (∀ b i, runPort (.readWord b i) s = .refused .fieldNotCarried) ∧
    (∀ b a n, runPort (.readBytes b a n) s = .refused .fieldNotCarried))

/-- R36: the byte view is big-endian: byte 4*i+j of OUTb is bits 31-8j..24-8j of slot i. R37, U9 and D13: a read of
any width within offsets 0..63 answers the bytes in order, and a read past offset 63 is refused; the view computed
from the batch is log 19. That a read of no bytes is answered with the empty list at every offset up to 64 is the
model's choice (log 20). -/
def Obligations.ByteViewIsBigEndian : Prop :=
  ∀ (s : State) c b1 b2, s.rsp = .ok c b1 b2 →
    (∀ (i j : Nat) (h : i < 16), j < 4 →
      runPort (.readBytes .first (4 * i + j) 1) s =
        .next { s with result := .bytes [(b1[i]).extractLsb' (24 - 8 * j) 8] } ∧
      runPort (.readBytes .second (4 * i + j) 1) s =
        .next { s with result := .bytes [(b2[i]).extractLsb' (24 - 8 * j) 8] }) ∧
    (∀ b a n, a + n ≤ 64 → ∃ bs, runPort (.readBytes b a n) s = .next { s with result := .bytes bs } ∧ bs.length = n ∧
      ∀ k < n, ∃ x, bs[k]? = some x ∧ runPort (.readBytes b (a + k) 1) s = .next { s with result := .bytes [x] }) ∧
    (∀ b a n, 64 < a + n → runPort (.readBytes b a n) s = .refused .outsideView)

/-- R38: a read has no side effect and gives the same answer when repeated: whatever it answers, the block's own state
is as before. -/
def Obligations.ReadsChangeNothingOfTheBlock : Prop :=
  ∀ (a : PortAction) (s t : State),
    (a = .readValid ∨ a = .readStatus ∨ a = .readBatchCount ∨ (∃ b i, a = .readWord b i) ∨
      (∃ b k n, a = .readBytes b k n)) →
    runPort a s = .next t →
    t = { s with result := t.result } ∧ runPort a t = .next t

/-- R31 and log 1: reading a character after writing it gives it back, every other index is untouched, the canonical
form is kept, and two canonical texts that read alike are equal. -/
def Obligations.TextMemoryLaws : Prop :=
  (∀ (mem : Memory) (i : Nat) (c : Byte) (k : Nat),
    Memory.read (Memory.write mem i c) k = if k = i then some c else Memory.read mem k) ∧
  (∀ (mem : Memory) (i : Nat) (c : Byte), Memory.wf mem = true → Memory.wf (Memory.write mem i c) = true) ∧
  (∀ m1 m2 : Memory, Memory.wf m1 = true → Memory.wf m2 = true → (∀ i, Memory.read m1 i = Memory.read m2 i) → m1 = m2)

/-! ## ParameterValidator -/

/-- R71, R72, R74: the three checks in their order on the whole value of each port; VALIDATE writes no state. That the
legal policies are the numbers 0, 1, 2 is the spec's decision D5 (log 14). -/
def Obligations.ValidateReportsTheFirstViolation : Prop :=
  ∀ (address : BitVec 32) (functionCode policy : BitVec 8) (s : State),
    ∃ v, exec (.validate address functionCode policy) s = .next { s with result := .verdict v } ∧
      (v = .err .invalidAddress ↔ (address.toNat = 0 ∨ 0x200000 ≤ address.toNat)) ∧
      (v = .err .invalidFunctionCode ↔
        (1 ≤ address.toNat ∧ address.toNat ≤ 0x1FFFFF) ∧ functionCode.toNat ∉ [0, 1, 3]) ∧
      (v = .err .invalidBatch2Policy ↔
        (1 ≤ address.toNat ∧ address.toNat ≤ 0x1FFFFF) ∧ functionCode.toNat ∈ [0, 1, 3] ∧ 3 ≤ policy.toNat) ∧
      (v = .ok ↔
        (1 ≤ address.toNat ∧ address.toNat ≤ 0x1FFFFF) ∧ functionCode.toNat ∈ [0, 1, 3] ∧ policy.toNat ≤ 2)

/-! ## BCHEncoder -/

/-- R81: BCHCHK runs 21 test, exclusive-or, shift steps and merges the working copy shifted right by 21 into the
operand; BCHCHK(0) = 0. That w and chk stay in State afterwards is the model's choice (log 11), since R80 gives the
unit no state between uses. -/
def Obligations.BchchkRunsTwentyOneSteps : Prop :=
  (∀ (v : Word) (s : State), v &&& 0x7FF#32 = 0#32 →
    ∃ w : Word, w = (fun x : Word => (if x.msb then x ^^^ 0xED200000#32 else x) <<< 1)^[21] v ∧
      exec (.bchchk v) s = .next { s with
        work := { s.work with w := w, chk := (w >>> 21).setWidth 11 }
        result := .word (v ||| (w >>> 21)) }) ∧
  (∀ s : State, ∃ t, exec (.bchchk 0#32) s = .next t ∧ t.result = .word 0#32)

/-- R82 (the spec marks it as derived): after the 21 steps the low 22 bits of the working copy are zero, bit 0 of chk
is 0, and the result keeps the operand's bits 31..11 and has bit 0 zero. -/
def Obligations.CheckFieldLandsInBitsTenToOne : Prop :=
  ∀ (v : Word) (s : State), v &&& 0x7FF#32 = 0#32 →
    ∃ t u, exec (.bchchk v) s = .next t ∧ t.result = .word u ∧
      t.work.w.extractLsb' 0 22 = 0#22 ∧ t.work.chk.getLsbD 0 = false ∧
      u.extractLsb' 11 21 = v.extractLsb' 11 21 ∧ u.extractLsb' 1 10 = t.work.w.extractLsb' 22 10 ∧
      u.getLsbD 0 = false

/-- R84, R86: EVENPAR adds 1 exactly when the count of set bits is odd; the addition only sets bit 0; the result has
an even count. -/
def Obligations.EvenparMakesTheCountEven : Prop :=
  ∀ (u : Word) (s : State), u.getLsbD 0 = false →
    ∃ r, exec (.evenpar u) s = .next { s with result := .word r } ∧
      (popcount32 u % 2 = 1 → r = u + 1#32 ∧ r = u ||| 1#32) ∧
      (popcount32 u % 2 = 0 → r = u) ∧
      popcount32 r % 2 = 0

/-- R85: BCHENC(v) = EVENPAR(BCHCHK(v)). The result keeps the top 21 bits, has BCHCHK's check field in bits 10..1
and an even count of set bits, and depends on v only. BCHENC changes w, chk and the answer record and nothing else,
w and chk as BCHCHK does; that these two stay in State is the model's choice (log 11). -/
def Obligations.BchencMeetsItsContract : Prop :=
  ∀ v : Word, v &&& 0x7FF#32 = 0#32 →
    ∃ (u r w : Word) (chk : BitVec 11),
      r.extractLsb' 11 21 = v.extractLsb' 11 21 ∧ r.extractLsb' 1 10 = u.extractLsb' 1 10 ∧
      popcount32 r % 2 = 0 ∧ isCodeword r = true ∧
      ∀ s : State,
        exec (.bchchk v) s =
          .next { s with work := { s.work with w := w, chk := chk }, result := .word u } ∧
        exec (.evenpar u) s = .next { s with result := .word r } ∧
        exec (.bchenc v) s =
          .next { s with work := { s.work with w := w, chk := chk }, result := .word r }

/-- R83 (the spec marks it as derived): BCHCHK and BCHENC are linear over exclusive-or. -/
def Obligations.BchIsLinearOverExclusiveOr : Prop :=
  ∀ (a b : Word) (s : State), a &&& 0x7FF#32 = 0#32 → b &&& 0x7FF#32 = 0#32 →
    (∃ ta tb tab ra rb, exec (.bchchk a) s = .next ta ∧ exec (.bchchk b) s = .next tb ∧
      exec (.bchchk (a ^^^ b)) s = .next tab ∧
      ta.result = .word ra ∧ tb.result = .word rb ∧ tab.result = .word (ra ^^^ rb)) ∧
    (∃ ta tb tab ra rb, exec (.bchenc a) s = .next ta ∧ exec (.bchenc b) s = .next tb ∧
      exec (.bchenc (a ^^^ b)) s = .next tab ∧
      ta.result = .word ra ∧ tb.result = .word rb ∧ tab.result = .word (ra ^^^ rb))

/-- The basis table of 95_test_vectors.md section 2.1 decides BCHENC on every operand: the result is the exclusive-or
of the table's words of the operand's set bits (R83). -/
def Obligations.BchencIsGivenByTheBasisTable : Prop :=
  ∀ (v : Word) (s : State), v &&& 0x7FF#32 = 0#32 →
    ∃ t, exec (.bchenc v) s = .next t ∧
      t.result = .word ((([(31, 0x80000769#32), (30, 0x400003B5#32), (29, 0x200001DB#32), (28, 0x10000784#32),
        (27, 0x080003C2#32), (26, 0x04000689#32), (25, 0x02000345#32), (24, 0x010001A3#32), (23, 0x008007B8#32),
        (22, 0x004003DC#32), (21, 0x002001EE#32), (20, 0x0010079F#32), (19, 0x000804A6#32), (18, 0x0004053B#32),
        (17, 0x000205F4#32), (16, 0x000102FA#32), (15, 0x00008615#32), (14, 0x0000430B#32), (13, 0x000026EC#32),
        (12, 0x00001376#32), (11, 0x00000ED3#32)] : List (Nat × Word)).filter
          fun e => v.getLsbD e.1).foldl (fun acc e => acc ^^^ e.2) 0#32)

/-! ## AddressCodewordBuilder -/

/-- R91 to R94: ADDRCW on validated operands: the frame and slot, the fields of the codeword, its type flag 0;
nothing but those three values changes. That the BCHENC inside leaves w and chk as they were is the model's choice
(log 11). -/
def Obligations.AddressCodewordRoundTrips : Prop :=
  ∀ (address : BitVec 32) (functionCode : BitVec 8) (s : State),
    1 ≤ address.toNat → address.toNat ≤ 0x1FFFFF → functionCode.toNat ∈ [0, 1, 3] →
    ∃ (frame : BitVec 3) (acw : Word),
      exec (.addrcw address functionCode) s =
        .next { s with work := { s.work with frame := frame, aslot := 2 * frame.toNat, acw := acw } } ∧
      frame.toNat = address.toNat % 8 ∧
      acw.getLsbD 31 = false ∧
      acw.extractLsb' 13 18 = address.extractLsb' 3 18 ∧
      acw.extractLsb' 11 2 = functionCode.extractLsb' 0 2 ∧
      isCodeword acw = true ∧ popcount32 acw % 2 = 0

/-- R95 (the spec marks it as derived): addresses 1 to 7 with TimeSync give the all-zero word, and the eight addresses
0x1EA270 to 0x1EA277 with TimeSync give the idle codeword, and they are not rejected. -/
def Obligations.AddressCodewordCoincidences : Prop :=
  ∀ (k : Nat) (s : State), k < 8 →
    (1 ≤ k → ∃ t, exec (.addrcw (BitVec.ofNat 32 k) 0#8) s = .next t ∧ t.work.acw = 0#32 ∧ t.work.aslot = 2 * k) ∧
    (∃ t, exec (.addrcw (BitVec.ofNat 32 (0x1EA270 + k)) 0#8) s = .next t ∧ t.work.acw = 0x7A89C197#32 ∧
      t.work.aslot = 2 * k)

/-! ## MessageEncoder -/

/-- R101, R102: CHARNIB is the symbol table with its default. The character codes are general knowledge (G1, D6), the
symbol values the source's. -/
def Obligations.CharnibIsTheSymbolTable : Prop :=
  ∀ (c : Byte) (s : State), ∃ x, exec (.charnib c) s = .next { s with result := .symbol x } ∧
    (0x30 ≤ c.toNat → c.toNat ≤ 0x39 → x.toNat = c.toNat - 0x30) ∧
    (c = 0x2A#8 → x = 10#4) ∧ (c = 0x55#8 → x = 11#4) ∧ (c = 0x20#8 → x = 12#4) ∧ (c = 0x2D#8 → x = 13#4) ∧
    (c = 0x28#8 → x = 14#4) ∧ (c = 0x29#8 → x = 15#4) ∧
    (c.toNat ∉ [0x30, 0x31, 0x32, 0x33, 0x34, 0x35, 0x36, 0x37, 0x38, 0x39, 0x2A, 0x55, 0x20, 0x2D, 0x28, 0x29] →
      x = 10#4)

/-- R103: REV4 exchanges bits 0 and 3, 1 and 2; twice it is the identity. -/
def Obligations.Rev4ReversesTheBits : Prop :=
  ∀ (x : BitVec 4) (s : State), ∃ y, exec (.rev4 x) s = .next { s with result := .nibble y } ∧
    (y.getLsbD 0 = x.getLsbD 3 ∧ y.getLsbD 1 = x.getLsbD 2 ∧ y.getLsbD 2 = x.getLsbD 1 ∧ y.getLsbD 3 = x.getLsbD 0) ∧
    exec (.rev4 y) s = .next { s with result := .nibble x }

/-- R104, R105: a group of 1 to 5 characters gives a codeword with type flag 1 whose nibble field j is
REV4(CHARNIB(g[j])), first character leftmost, and zero beyond the group's end. That nothing but the answer record
changes, w and chk included, is the model's choice (log 11). -/
def Obligations.MessageCodewordHoldsItsGroup : Prop :=
  ∀ (group : List Byte) (s : State), 1 ≤ group.length → group.length ≤ 5 →
    ∃ r, exec (.msgcw group) s = .next { s with result := .word r } ∧
      r.getLsbD 31 = true ∧ isCodeword r = true ∧ popcount32 r % 2 = 0 ∧
      (∀ (j : Nat) (h : j < group.length), r.extractLsb' (27 - 4 * j) 4 = rev4 (charnib group[j])) ∧
      (∀ j, group.length ≤ j → j < 5 → r.extractLsb' (27 - 4 * j) 4 = 0#4)

/-- R106: MSGENC cuts the text into groups of five and answers ceil(n/5) codewords in order, each the MSGCW of its
own group. That nothing but m and mcw changes, w and chk included, is the model's choice (log 11). -/
def Obligations.MessageIsCutIntoGroupsOfFive : Prop :=
  ∀ (text : List Byte) (s : State), text.length ≤ 40 →
    ∃ mcw : List Word,
      exec (.msgenc text) s = .next { s with work := { s.work with m := (text.length + 4) / 5, mcw := mcw } } ∧
      mcw.length = (text.length + 4) / 5 ∧ mcw.length ≤ 8 ∧
      ∀ i < mcw.length, ∃ r, mcw[i]? = some r ∧
        exec (.msgcw ((text.drop (5 * i)).take 5)) s = .next { s with result := .word r }

/-! ## BatchAssembler -/

/-- R116: BATCHINIT writes the idle codeword to all 32 slots and nothing else. -/
def Obligations.BatchinitFillsEverySlotWithIdle : Prop :=
  ∀ s : State, ∃ slots : Slots, exec .batchinit s = .next { s with work := { s.work with slots := slots } } ∧
    ∀ (k : Nat) (h : k < 32), slots[k] = 0x7A89C197#32

/-- R117: PLACE writes slot k when k is at most 31 and nothing otherwise. -/
def Obligations.PlaceWritesOneSlotOrNone : Prop :=
  ∀ (k : BitVec 6) (v : Word) (s : State), ∃ slots : Slots,
    exec (.place k v) s = .next { s with work := { s.work with slots := slots } } ∧
    (∀ (j : Nat) (h : j < 32), slots[j] = if j = k.toNat then v else s.work.slots[j]) ∧
    (31 < k.toNat → slots = s.work.slots)

/-- R119, R120, R122: ASSEMBLE puts the address codeword at its slot, the message codewords in the slots that
follow, IDLE everywhere else, and reports the highest used slot. That it does so on odd slots, and on more than
eight codewords with those past slot 31 dropped, is the model's inference (log 16): a transaction asks for slots 0,
2, .., 14 and at most eight. -/
def Obligations.AssemblePlacesAddressThenMessage : Prop :=
  ∀ (aslot : BitVec 4) (acw : Word) (mcw : List Word) (s : State), ∃ slots : Slots,
    exec (.assemble aslot acw mcw) s = .next { s with work := { s.work with
      slots := slots
      cursor := aslot.toNat + 1 + mcw.length
      highest := min (aslot.toNat + mcw.length) 31 } } ∧
    (∀ (h : aslot.toNat < 32), slots[aslot.toNat] = acw) ∧
    (∀ (i : Nat) (h : i < mcw.length) (h' : aslot.toNat + 1 + i < 32), slots[aslot.toNat + 1 + i] = mcw[i]) ∧
    (∀ (k : Nat) (h : k < 32), k < aslot.toNat ∨ aslot.toNat + mcw.length < k → slots[k] = 0x7A89C197#32)

/-- R126, R127, R128 and R125: Truncate reports 1 and changes no slot, CopyBatch1 reports 2 and copies slot i to
slot 16+i, and at 16 and above the policy is not looked at: 2 is reported and no slot changes (for an unvalidated
policy too, by inference, log 16). The policy numbers are the spec's decision D5 (log 14). -/
def Obligations.DisposeFollowsThePolicy : Prop :=
  ∀ (highest : BitVec 5) (s : State),
    (highest.toNat < 16 →
      exec (.dispose highest 0#8) s = .next { s with work := { s.work with count := .one } } ∧
      ∃ slots : Slots,
        exec (.dispose highest 1#8) s = .next { s with work := { s.work with slots := slots, count := .two } } ∧
        ∀ (i : Nat) (h : i < 16), slots[i] = s.work.slots[i] ∧ slots[16 + i] = s.work.slots[i]) ∧
    (16 ≤ highest.toNat → ∀ policy : BitVec 8,
      exec (.dispose highest policy) s = .next { s with work := { s.work with count := .two } })

/-- R129: the spec's decision D18 and log 12, not the source's: LeaveIdle reports 1 and gives for every request the
response that Truncate gives. -/
def Obligations.LeaveIdleGivesTheTruncateResponse : Prop :=
  (∀ (highest : BitVec 5) (s : State), highest.toNat < 16 →
    exec (.dispose highest 2#8) s = .next { s with work := { s.work with count := .one } }) ∧
  (∀ (a : BitVec 32) (f : BitVec 8) (v : Bool) (text : List Byte) (s : State), text.length ≤ Config.textLenMax →
    ∃ t u, exec (.encode a f 2#8 v text) s = .next t ∧ exec (.encode a f 0#8 v text) s = .next u ∧ t.rsp = u.rsp)

/-! ## PostProcessor -/

/-- R136: INVERT complements all 32 slots when asked for and changes none otherwise; twice it is the identity. -/
def Obligations.InvertComplementsEverySlot : Prop :=
  ∀ s : State,
    exec (.invert false) s = .next s ∧
    ∃ slots : Slots, exec (.invert true) s = .next { s with work := { s.work with slots := slots } } ∧
      (∀ (k : Nat) (h : k < 32), slots[k] = ~~~s.work.slots[k]) ∧
      exec (.invert true) { s with work := { s.work with slots := slots } } = .next s

/-- R139: SERIALIZE gives the four bytes most significant first; put together again in that order they are the word.
-/
def Obligations.SerializeIsMostSignificantFirst : Prop :=
  ∀ (v : Word) (s : State), ∃ b0 b1 b2 b3 : Byte,
    exec (.serialize v) s = .next { s with result := .bytes [b0, b1, b2, b3] } ∧
    (b0 = v.extractLsb' 24 8 ∧ b1 = v.extractLsb' 16 8 ∧ b2 = v.extractLsb' 8 8 ∧ b3 = v.extractLsb' 0 8) ∧
    b0 ++ b1 ++ b2 ++ b3 = v

/-! ## The ENCODE transaction -/

/-- R74, R145, R161 to R163 and log 17: an illegal request ends in Err with the first violated check, and nothing
else of the block changes: REQ holds the request presented, no call-scoped value is left, the answer record and the
script are as before. -/
def Obligations.EncodeRaisesTheFirstError : Prop :=
  ∀ (a : BitVec 32) (f q : BitVec 8) (v : Bool) (text : List Byte) (s : State) (k : ErrorKind),
    text.length ≤ Config.textLenMax →
    ((k = .invalidAddress ∧ (a.toNat = 0 ∨ 0x1FFFFF < a.toNat)) ∨
     (k = .invalidFunctionCode ∧ 1 ≤ a.toNat ∧ a.toNat ≤ 0x1FFFFF ∧ f.toNat ∉ [0, 1, 3]) ∨
     (k = .invalidBatch2Policy ∧ 1 ≤ a.toNat ∧ a.toNat ≤ 0x1FFFFF ∧ f.toNat ∈ [0, 1, 3] ∧ 2 < q.toNat)) →
    ∃ mem : Memory,
      exec (.encode a f q v text) s = .next { s with
        rsp := .err k
        work := Work.fresh
        req := { address := some a, functionCode := some f, batch2Policy := some q, invertPhase := some v,
                 textLen := some text.length, text := mem } } ∧
      (∀ i, i < text.length → Memory.read mem i = text[i]?) ∧
      (∀ i, text.length ≤ i → Memory.read mem i = Memory.read s.req.text i)

/-- R145, R149: a legal request ends in Ok. With n = min(L, 40), m = ceil(n/5) and aslot = 2 * (address mod 8),
before inversion Batch 1 and Batch 2 hold the address codeword of ADDRCW at aslot, the codeword of MSGCW of group i
at aslot+1+i, and IDLE elsewhere; under CopyBatch1 with aslot+m below 16 Batch 2 is Batch 1; the count is 2 exactly
when aslot+m reaches 16 or the policy is CopyBatch1 (with LeaveIdle by decision D18, log 12; the policy numbers by
D5, log 14); inversion complements all 32 words. REQ holds the request presented (log 17); no call-scoped value is
left (log 10). That MSGCW executed alone changes nothing but the answer record is log 11. -/
def Obligations.EncodeAnswersTheTwoBatches : Prop :=
  ∀ (a : BitVec 32) (f q : BitVec 8) (v : Bool) (text : List Byte) (s : State),
    text.length ≤ Config.textLenMax →
    1 ≤ a.toNat → a.toNat ≤ 0x1FFFFF → f.toNat ∈ [0, 1, 3] → q.toNat ≤ 2 →
    ∃ (mem : Memory) (c : BatchCount) (b1 b2 : Batch) (plain : Nat → Word),
      exec (.encode a f q v text) s = .next { s with
        rsp := .ok c b1 b2
        work := Work.fresh
        req := { address := some a, functionCode := some f, batch2Policy := some q, invertPhase := some v,
                 textLen := some text.length, text := mem } } ∧
      (∀ i, i < text.length → Memory.read mem i = text[i]?) ∧
      (∀ i, text.length ≤ i → Memory.read mem i = Memory.read s.req.text i) ∧
      (c = .two ↔ (16 ≤ 2 * (a.toNat % 8) + (min text.length 40 + 4) / 5 ∨ q = 1#8)) ∧
      (∃ t, exec (.addrcw a f) s = .next t ∧ plain (2 * (a.toNat % 8)) = t.work.acw) ∧
      (∀ i, i < (min text.length 40 + 4) / 5 →
        exec (.msgcw (((text.take 40).drop (5 * i)).take 5)) s =
          .next { s with result := .word (plain (2 * (a.toNat % 8) + 1 + i)) }) ∧
      (∀ k, (k < 2 * (a.toNat % 8) ∨ 2 * (a.toNat % 8) + (min text.length 40 + 4) / 5 < k) →
        plain k = 0x7A89C197#32) ∧
      (∀ (i : Nat) (h : i < 16), b1[i] = (if v then ~~~plain i else plain i)) ∧
      (∀ (i : Nat) (h : i < 16),
        b2[i] = if q = 1#8 ∧ 2 * (a.toNat % 8) + (min text.length 40 + 4) / 5 < 16 then b1[i]
          else if v then ~~~plain (16 + i) else plain (16 + i))

/-- R5, R26, R164: the response depends on the request of its own transaction and on nothing else, nothing of one
transaction is an input of the next, and repeating a call changes nothing. -/
def Obligations.ResponseDependsOnTheRequestOnly : Prop :=
  ∀ (a : BitVec 32) (f q : BitVec 8) (v : Bool) (text : List Byte) (s1 s2 t1 t2 : State),
    exec (.encode a f q v text) s1 = .next t1 → exec (.encode a f q v text) s2 = .next t2 →
    t1.rsp = t2.rsp ∧ t1.work = t2.work ∧ exec (.encode a f q v text) t1 = .next t1

/-- R145: ENCODE is its unit operations in the order of the rule, SERIALIZE last. Executed one after another from
any state, each fed with what the ones before left, they end with the slot array and the count that ENCODE answers,
and SERIALIZE of each slot gives the four bytes that a host reads of that slot. A text is of at most 255 characters
here, the largest operand TRUNCATE's row can carry (log 3). -/
def Obligations.EncodeIsItsUnitsInOrder : Prop :=
  ∀ (a : BitVec 32) (f q : BitVec 8) (v : Bool) (text : List Byte) (s : State),
    text.length ≤ Config.textLenMax → text.length ≤ 255 →
    1 ≤ a.toNat → a.toNat ≤ 0x1FFFFF → f.toNat ∈ [0, 1, 3] → q.toNat ≤ 2 →
    ∃ s1 s2 s3 s4 s5 s6 s7 t : State,
      exec (.validate a f q) s = .next s1 ∧ s1.result = .verdict .ok ∧
      exec (.truncate (BitVec.ofNat 8 text.length)) s1 = .next s2 ∧
      exec (.addrcw a f) s2 = .next s3 ∧
      exec (.msgenc (text.take s3.work.n)) s3 = .next s4 ∧
      exec (.assemble (BitVec.ofNat 4 s4.work.aslot) s4.work.acw s4.work.mcw) s4 = .next s5 ∧
      exec (.dispose (BitVec.ofNat 5 s5.work.highest) q) s5 = .next s6 ∧
      exec (.invert v) s6 = .next s7 ∧
      exec (.encode a f q v text) s = .next t ∧
      ∃ b1 b2 : Batch, t.rsp = .ok s7.work.count b1 b2 ∧
        ∀ (i : Nat) (h : i < 16), b1[i] = s7.work.slots[i] ∧ b2[i] = s7.work.slots[16 + i] ∧
          ∃ bs1 bs2 : List Byte,
            exec (.serialize s7.work.slots[i]) s7 = .next { s7 with result := .bytes bs1 } ∧
            exec (.serialize s7.work.slots[16 + i]) s7 = .next { s7 with result := .bytes bs2 } ∧
            runPort (.readBytes .first (4 * i) 4) t = .next { t with result := .bytes bs1 } ∧
            runPort (.readBytes .second (4 * i) 4) t = .next { t with result := .bytes bs2 }

/-- R147: the two builders may run in either order. That the whole state is the same, w and chk included, rests on
the model's choice that the builders leave those two as they were (log 11). -/
def Obligations.TheTwoBuildersCommute : Prop :=
  ∀ (address : BitVec 32) (functionCode : BitVec 8) (text : List Byte) (s : State),
    1 ≤ address.toNat → address.toNat ≤ 0x1FFFFF → functionCode.toNat ∈ [0, 1, 3] → text.length ≤ 40 →
    ∃ s1 s2 t, exec (.addrcw address functionCode) s = .next s1 ∧ exec (.msgenc text) s = .next s2 ∧
      exec (.msgenc text) s1 = .next t ∧ exec (.addrcw address functionCode) s2 = .next t

/-- R144: TRUNCATE(L) = min(L, 40), and two texts with the same first 40 characters give the same response. -/
def Obligations.CharactersPastTheFortiethAreIgnored : Prop :=
  (∀ (len : BitVec 8) (s : State),
    exec (.truncate len) s = .next { s with work := { s.work with n := min len.toNat 40 } }) ∧
  (∀ (a : BitVec 32) (f q : BitVec 8) (v : Bool) (text text' : List Byte) (s : State),
    text.length ≤ Config.textLenMax → text'.length ≤ Config.textLenMax → text.take 40 = text'.take 40 →
    ∃ t t', exec (.encode a f q v text) s = .next t ∧ exec (.encode a f q v text') s = .next t' ∧ t.rsp = t'.rsp)

/-- R137: with invertPhase every output word is the complement of the word without it, and the status and the count
are the same. -/
def Obligations.InvertPhaseComplementsTheResponse : Prop :=
  ∀ (a : BitVec 32) (f q : BitVec 8) (text : List Byte) (s : State), text.length ≤ Config.textLenMax →
    ∃ t u, exec (.encode a f q false text) s = .next t ∧ exec (.encode a f q true text) s = .next u ∧
      statusOf t.rsp = statusOf u.rsp ∧ batchCountOf t.rsp = batchCountOf u.rsp ∧
      ∀ c b1 b2, t.rsp = .ok c b1 b2 → ∃ b1' b2', u.rsp = .ok c b1' b2' ∧
        ∀ (i : Nat) (h : i < 16), b1'[i] = ~~~b1[i] ∧ b2'[i] = ~~~b2[i]

/-- R127: under CopyBatch1, with a message that stays in Batch 1, the two batches are identical and the count is 2. -/
def Obligations.CopyBatch1MakesTheBatchesIdentical : Prop :=
  ∀ (a : BitVec 32) (f : BitVec 8) (v : Bool) (text : List Byte) (s : State),
    text.length ≤ Config.textLenMax → 1 ≤ a.toNat → a.toNat ≤ 0x1FFFFF → f.toNat ∈ [0, 1, 3] →
    2 * (a.toNat % 8) + (min text.length 40 + 4) / 5 < 16 →
    ∃ t b, exec (.encode a f 1#8 v text) s = .next t ∧ t.rsp = .ok .two b b

/-- R149 point 2, with R50: every word of a response has an even count of set bits and is a codeword, inverted or
not. -/
def Obligations.EveryOutputWordIsACodeword : Prop :=
  ∀ (a : BitVec 32) (f q : BitVec 8) (v : Bool) (text : List Byte) (s t : State) (c : BatchCount) (b1 b2 : Batch),
    exec (.encode a f q v text) s = .next t → t.rsp = .ok c b1 b2 →
    ∀ (i : Nat) (h : i < 16),
      (popcount32 b1[i] % 2 = 0 ∧ isCodeword b1[i] = true) ∧ (popcount32 b2[i] % 2 = 0 ∧ isCodeword b2[i] = true)

/-- R128: once the message reaches Batch 2 the three policies give one response, with a count of 2. -/
def Obligations.PolicyIsIdleOnceBatchTwoIsReached : Prop :=
  ∀ (a : BitVec 32) (f q : BitVec 8) (v : Bool) (text : List Byte) (s : State),
    text.length ≤ Config.textLenMax → 1 ≤ a.toNat → a.toNat ≤ 0x1FFFFF → f.toNat ∈ [0, 1, 3] → q.toNat ≤ 2 →
    16 ≤ 2 * (a.toNat % 8) + (min text.length 40 + 4) / 5 →
    ∃ t u, exec (.encode a f q v text) s = .next t ∧ exec (.encode a f 0#8 v text) s = .next u ∧
      t.rsp = u.rsp ∧ batchCountOf t.rsp = some .two

/-! ## The value rows of the table -/

/-- R12, R56, R72: the function-code rows are the host's write of their value (the model's choice, log 13); a start
on a request that is otherwise complete, with a legal address, then ends in InvalidFunctionCode for the illegal ones
and does not for the three legal ones. -/
def Obligations.FunctionCodeRowsReachTheValidator : Prop :=
  (∀ (i : Instr) (x : BitVec 8) (s : State),
    ((i = .fcTimesync ∧ x = 0#8) ∨ (i = .fcDown ∧ x = 1#8) ∨ (i = .fcIllegal2 ∧ x = 2#8) ∨ (i = .fcUp ∧ x = 3#8) ∨
      i = .fcIllegal4To255 x) →
    exec i s = .next { s with req := { s.req with functionCode := some x } }) ∧
  (∀ (i : Instr) (s t u : State) (a : BitVec 32), exec i s = .next t → runPort .start t = .next u →
    s.req.address = some a → 1 ≤ a.toNat → a.toNat ≤ 0x1FFFFF →
    ((i = .fcIllegal2 ∨ ∃ x : BitVec 8, 4 ≤ x.toNat ∧ i = .fcIllegal4To255 x) → u.rsp = .err .invalidFunctionCode) ∧
    ((i = .fcTimesync ∨ i = .fcDown ∨ i = .fcUp) → u.rsp ≠ .err .invalidFunctionCode))

/-- R13, R57, R73: the same for the policy rows and InvalidBatch2Policy, address and function code being legal. The
numbers are the spec's decision D5 (log 14), the rows as writes the model's choice (log 13). -/
def Obligations.PolicyRowsReachTheValidator : Prop :=
  (∀ (i : Instr) (x : BitVec 8) (s : State),
    ((i = .polTruncate ∧ x = 0#8) ∨ (i = .polCopybatch1 ∧ x = 1#8) ∨ (i = .polLeaveidle ∧ x = 2#8) ∨
      i = .polIllegal3To255 x) →
    exec i s = .next { s with req := { s.req with batch2Policy := some x } }) ∧
  (∀ (i : Instr) (s t u : State) (a : BitVec 32) (f : BitVec 8), exec i s = .next t → runPort .start t = .next u →
    s.req.address = some a → 1 ≤ a.toNat → a.toNat ≤ 0x1FFFFF → s.req.functionCode = some f → f.toNat ∈ [0, 1, 3] →
    ((∃ x : BitVec 8, 3 ≤ x.toNat ∧ i = .polIllegal3To255 x) → u.rsp = .err .invalidBatch2Policy) ∧
    ((i = .polTruncate ∨ i = .polCopybatch1 ∨ i = .polLeaveidle) → ∃ c b1 b2, u.rsp = .ok c b1 b2))

/-- R16, R136 and log 13: the two invertPhase rows write the bit; the responses that follow are complements of each
other. -/
def Obligations.InvertPhaseRowsSelectTheInversion : Prop :=
  ∀ s : State,
    exec .invertFalse s = .next { s with req := { s.req with invertPhase := some false } } ∧
    exec .invertTrue s = .next { s with req := { s.req with invertPhase := some true } } ∧
    ∀ t u c b1 b2, runPort .start { s with req := { s.req with invertPhase := some false } } = .next t →
      runPort .start { s with req := { s.req with invertPhase := some true } } = .next u → t.rsp = .ok c b1 b2 →
      ∃ b1' b2', u.rsp = .ok c b1' b2' ∧ ∀ (i : Nat) (h : i < 16), b1'[i] = ~~~b1[i] ∧ b2'[i] = ~~~b2[i]

/-- R18, R19, R58, R64 (numbers by decision D9, D24, log 14; the rows as reads by log 13): each status and
batch-count row answers the value of its pattern, and its bytes are that pattern; a host that reads RSP gets the
answer of the row with the status or count that RSP carries. -/
def Obligations.StatusAndCountRowsReadTheirValue : Prop :=
  (∀ (i : Instr) (v : Verdict) (s : State),
    ((i = .stOk ∧ v = .ok) ∨ (i = .stInvalidAddress ∧ v = .err .invalidAddress) ∨
      (i = .stInvalidFunctionCode ∧ v = .err .invalidFunctionCode) ∨
      (i = .stInvalidBatch2Policy ∧ v = .err .invalidBatch2Policy)) →
    exec i s = .next { s with result := .status v } ∧
    decode .st2 [(statusCode v).setWidth 8] = .ok (i, []) ∧
    (statusOf s.rsp = some v → runPort .readStatus s = exec i s)) ∧
  (∀ (i : Instr) (c : BatchCount) (s : State),
    ((i = .batchcount1 ∧ c = .one) ∨ (i = .batchcount2 ∧ c = .two)) →
    exec i s = .next { s with result := .batchCount c } ∧
    decode .bc2 [(batchCountBits c).setWidth 8] = .ok (i, []) ∧
    (batchCountOf s.rsp = some c → runPort .readBatchCount s = exec i s))

/-- R55, R102 (codes by G1, D6, log 14; the rows as lookups by log 13): each character row gives the symbol value,
the nibble and the single-character codeword of the table; a code that is not listed gives what `*` gives. -/
def Obligations.SymbolRowsGiveTheTable : Prop :=
  ∀ s : State,
    (∀ e ∈ ([(.sym0, 0#4, 0x0#4, 0x80000769#32), (.sym1, 1#4, 0x8#4, 0xC00004DC#32), (.sym2, 2#4, 0x4#4, 0xA00006B2#32),
        (.sym3, 3#4, 0xC#4, 0xE0000507#32), (.sym4, 4#4, 0x2#4, 0x900000ED#32), (.sym5, 5#4, 0xA#4, 0xD0000358#32),
        (.sym6, 6#4, 0x6#4, 0xB0000136#32), (.sym7, 7#4, 0xE#4, 0xF0000283#32), (.sym8, 8#4, 0x1#4, 0x880004AB#32),
        (.sym9, 9#4, 0x9#4, 0xC800071E#32), (.symStar, 10#4, 0x5#4, 0xA8000570#32), (.symU, 11#4, 0xD#4, 0xE80006C5#32),
        (.symSpace, 12#4, 0x3#4, 0x9800032F#32), (.symMinus, 13#4, 0xB#4, 0xD800009A#32),
        (.symLparen, 14#4, 0x7#4, 0xB80002F4#32), (.symRparen, 15#4, 0xF#4, 0xF8000141#32)] :
        List (Instr × BitVec 4 × BitVec 4 × Word)),
      exec e.1 s = .next { s with result := .character e.2.1 e.2.2.1 e.2.2.2 }) ∧
    (∀ c : Byte, c ∉ listedCodes →
      exec (.symDefault c) s = .next { s with result := .character 10#4 0x5#4 0xA8000570#32 })

/-- R53, R55 and log 13: each nibble row gives the symbol value REV4(nibble) and the character that has it, whose
own row gives the nibble back. -/
def Obligations.NibbleRowsInvertTheTable : Prop :=
  ∀ s : State,
    (∀ e ∈ ([(.nib0, 0x0#4, 0, 0x30#8), (.nib8, 0x8#4, 1, 0x31#8), (.nib4, 0x4#4, 2, 0x32#8), (.nibC, 0xC#4, 3, 0x33#8),
        (.nib2, 0x2#4, 4, 0x34#8), (.nibA, 0xA#4, 5, 0x35#8), (.nib6, 0x6#4, 6, 0x36#8), (.nibE, 0xE#4, 7, 0x37#8),
        (.nib1, 0x1#4, 8, 0x38#8), (.nib9, 0x9#4, 9, 0x39#8), (.nib5, 0x5#4, 10, 0x2A#8), (.nibD, 0xD#4, 11, 0x55#8),
        (.nib3, 0x3#4, 12, 0x20#8), (.nibB, 0xB#4, 13, 0x2D#8), (.nib7, 0x7#4, 14, 0x28#8), (.nibF, 0xF#4, 15, 0x29#8)] :
        List (Instr × BitVec 4 × BitVec 4 × Byte)),
      exec e.1 s = .next { s with result := .nibbleRead e.2.2.1 e.2.2.2 } ∧
      decode .nib4 [e.2.1.setWidth 8] = .ok (e.1, []) ∧
      exec (.rev4 e.2.1) s = .next { s with result := .nibble e.2.2.1 } ∧
      ∃ c', exec (symbolRow e.2.2.2) s = .next { s with result := .character e.2.2.1 e.2.1 c' })

/-- R46 to R49 and log 13: a codeword row before inversion answers its own fields, and the word they make has them
at the bit positions of R47 and R48. An address codeword equal to IDLE is the idle row (R95). -/
def Obligations.CodewordRowsReadTheirFields : Prop :=
  (∀ (a : BitVec 18) (f : BitVec 2) (c : BitVec 10) (p : BitVec 1) (s : State), ∃ w : Word,
    w.getLsbD 31 = false ∧ w.extractLsb' 13 18 = a ∧ w.extractLsb' 11 2 = f ∧ w.extractLsb' 1 10 = c ∧
    w.extractLsb' 0 1 = p ∧
    exec (.cwAddr a f c p) s =
      .next { s with result := .codeword ⟨false, w, if w = 0x7A89C197#32 then .idle else .address a f, c, p⟩ }) ∧
  (∀ (n0 n1 n2 n3 n4 : BitVec 4) (c : BitVec 10) (p : BitVec 1) (s : State), ∃ w : Word,
    w.getLsbD 31 = true ∧ w.extractLsb' 27 4 = n0 ∧ w.extractLsb' 23 4 = n1 ∧ w.extractLsb' 19 4 = n2 ∧
    w.extractLsb' 15 4 = n3 ∧ w.extractLsb' 11 4 = n4 ∧ w.extractLsb' 1 10 = c ∧ w.extractLsb' 0 1 = p ∧
    exec (.cwMsg n0 n1 n2 n3 n4 c p) s =
      .next { s with result := .codeword ⟨false, w, .message n0 n1 n2 n3 n4, c, p⟩ }) ∧
  (∀ s : State, exec .cwIdle s =
    .next { s with result := .codeword ⟨false, 0x7A89C197#32, .idle, 0x0CB#10, 1#1⟩ })

/-- R50 and log 13: a codeword row after inversion answers the complements of its fields, which are the fields of
the complemented word; the inverted idle codeword reads as idle. -/
def Obligations.InvertedCodewordRowsReadTheComplement : Prop :=
  (∀ (a : BitVec 18) (f : BitVec 2) (c : BitVec 10) (p : BitVec 1) (s : State), ∃ w : Word,
    w.getLsbD 31 = false ∧ w.extractLsb' 13 18 = ~~~a ∧ w.extractLsb' 11 2 = ~~~f ∧ w.extractLsb' 1 10 = ~~~c ∧
    w.extractLsb' 0 1 = ~~~p ∧
    exec (.cwAddrInverted a f c p) s =
      .next { s with result := .codeword ⟨true, w, if w = 0x7A89C197#32 then .idle else .address (~~~a) (~~~f), ~~~c, ~~~p⟩ }) ∧
  (∀ (n0 n1 n2 n3 n4 : BitVec 4) (c : BitVec 10) (p : BitVec 1) (s : State), ∃ w : Word,
    w.getLsbD 31 = true ∧ w.extractLsb' 27 4 = ~~~n0 ∧ w.extractLsb' 23 4 = ~~~n1 ∧ w.extractLsb' 19 4 = ~~~n2 ∧
    w.extractLsb' 15 4 = ~~~n3 ∧ w.extractLsb' 11 4 = ~~~n4 ∧ w.extractLsb' 1 10 = ~~~c ∧ w.extractLsb' 0 1 = ~~~p ∧
    exec (.cwMsgInverted n0 n1 n2 n3 n4 c p) s =
      .next { s with result := .codeword ⟨true, w, .message (~~~n0) (~~~n1) (~~~n2) (~~~n3) (~~~n4), ~~~c, ~~~p⟩ }) ∧
  (∀ s : State, exec .cwIdleInverted s =
    .next { s with result := .codeword ⟨true, 0x7A89C197#32, .idle, 0x0CB#10, 1#1⟩ })
end

