-- ==== Sys2Proof/Laws/Bch.lean ====
section
/-! SUPPORT. The algebra of BCHEncoder: the parity of a count of set bits, linearity of the 21 steps (41_bch_encoder.md
R83), where the check field ends up (R82), and what BCHENC keeps (R85). -/

namespace Sys2Proof.Machine

theorem popcountBelow_xor (a b : Word) (k : Nat) :
    popcountBelow (a ^^^ b) k % 2 = (popcountBelow a k + popcountBelow b k) % 2 := by
  induction k with
  | zero => rfl
  | succ k ih =>
    simp only [popcountBelow, BitVec.getLsbD_xor]
    cases a.getLsbD k <;> cases b.getLsbD k <;> simp <;> omega

theorem odd_add (x y z : Nat) (h : x % 2 = (y + z) % 2) :
    decide (x % 2 = 1) = (decide (y % 2 = 1) ^^ decide (z % 2 = 1)) := by
  rcases Nat.mod_two_eq_zero_or_one y with hy | hy <;> rcases Nat.mod_two_eq_zero_or_one z with hz | hz <;>
    simp [h, Nat.add_mod, hy, hz]

/-- The parity of an exclusive-or is the exclusive-or of the parities (R83). -/
theorem oddPopcount_xor (a b : Word) : oddPopcount (a ^^^ b) = (oddPopcount a ^^ oddPopcount b) :=
  odd_add _ _ _ (popcountBelow_xor a b 32)

theorem xor_twice (a b g : Word) : (a ^^^ g) ^^^ (b ^^^ g) = a ^^^ b := by
  rw [BitVec.xor_comm b g, BitVec.xor_assoc, ← BitVec.xor_assoc g g b, BitVec.xor_self, BitVec.zero_xor]

theorem bchStep_xor (a b : Word) : bchStep (a ^^^ b) = bchStep a ^^^ bchStep b := by
  simp only [bchStep, BitVec.getLsbD_xor, ← BitVec.shiftLeft_xor_distrib]
  cases a.getLsbD 31 <;> cases b.getLsbD 31 <;> simp only [Bool.xor_false, Bool.xor_true, Bool.not_false,
    Bool.not_true, if_true, Bool.false_eq_true, if_false, xor_twice]
  · rw [BitVec.xor_assoc]
  · rw [BitVec.xor_assoc, BitVec.xor_comm b, BitVec.xor_assoc]

theorem bchSteps_xor (n : Nat) : ∀ a b : Word, bchSteps n (a ^^^ b) = bchSteps n a ^^^ bchSteps n b := by
  induction n with
  | zero => exact fun _ _ => rfl
  | succ n ih => exact fun a b => by simp only [bchSteps, bchStep_xor, ih]

/-- The steps are the n-fold iterate of one step. -/
theorem bchSteps_eq_iterate (n : Nat) : ∀ w : Word, bchSteps n w = bchStep^[n] w := by
  induction n with
  | zero => exact fun _ => rfl
  | succ n ih => exact fun w => by rw [bchSteps, ih, Function.iterate_succ_apply]

theorem lowMask_getLsbD (i : Nat) : (0x7FF#32).getLsbD i = decide (i < 11) := by
  rw [BitVec.getLsbD_ofNat, show (0x7FF : Nat) = 2 ^ 11 - 1 from rfl, Nat.testBit_two_pow_sub_one]
  by_cases h : i < 11 <;> simp [h]; omega

theorem topMask_getLsbD (i : Nat) : (0xFFFFF800#32).getLsbD i = (decide (11 ≤ i) && decide (i < 32)) := by
  rw [show (0xFFFFF800#32) = ~~~(0x7FF#32) from rfl, BitVec.getLsbD_not, lowMask_getLsbD, Bool.and_comm]
  congr 1; by_cases h : i < 11 <;> simp [h]; omega

theorem lowBitsClear_iff (v : Word) : lowBitsClear v = true ↔ ∀ i < 11, v.getLsbD i = false := by
  simp only [lowBitsClear, decide_eq_true_eq]
  constructor
  · intro h i hi
    have := congrArg (·.getLsbD i) h
    simpa [BitVec.getLsbD_and, lowMask_getLsbD, hi] using this
  · intro h
    apply BitVec.eq_of_getLsbD_eq
    intro i _
    rw [BitVec.getLsbD_and, lowMask_getLsbD, BitVec.getLsbD_zero]
    by_cases hi : i < 11
    · simp [h i hi]
    · simp [hi]

theorem lowBitsClear_xor (a b : Word) (ha : lowBitsClear a = true) (hb : lowBitsClear b = true) :
    lowBitsClear (a ^^^ b) = true := by
  rw [lowBitsClear_iff] at *
  intro i hi; rw [BitVec.getLsbD_xor, ha i hi, hb i hi]; rfl

theorem lowBitsClear_and_top (w : Word) : lowBitsClear (w &&& 0xFFFFF800#32) = true := by
  rw [lowBitsClear_iff]
  intro i hi
  rw [BitVec.getLsbD_and, topMask_getLsbD, decide_eq_false (by omega : ¬ 11 ≤ i)]; simp

/-- GEN has no bit below 21. -/
theorem gen_getLsbD_of_lt (i : Nat) (h : i < 21) : Config.gen.getLsbD i = false := by
  revert i; decide

/-- One step moves the clear low bits up by one place, as far as bit 21. -/
theorem bchStep_clear (w : Word) (k : Nat) (hk : k ≤ 22) (h : ∀ i < k, w.getLsbD i = false) :
    ∀ i < min (k + 1) 22, (bchStep w).getLsbD i = false := by
  intro i hi
  rw [bchStep, BitVec.getLsbD_shiftLeft]
  by_cases h0 : i < 1
  · simp [h0]
  · have hw : w.getLsbD (i - 1) = false := h _ (by omega)
    split_ifs
    · rw [BitVec.getLsbD_xor, hw, gen_getLsbD_of_lt _ (by omega)]; simp
    · rw [hw]; simp

theorem bchSteps_clear (n : Nat) : ∀ (w : Word) (k : Nat), k ≤ 22 → (∀ i < k, w.getLsbD i = false) →
    ∀ i < min (k + n) 22, (bchSteps n w).getLsbD i = false := by
  induction n with
  | zero => intro w k _ h i hi; exact h i (by omega)
  | succ n ih =>
    intro w k hk h i hi
    exact ih (bchStep w) (min (k + 1) 22) (by omega) (bchStep_clear w k hk h) i (by omega)

/-- After the 21 steps bits 21..0 of the working copy are zero (R82). -/
theorem bchWork_clear (v : Word) (h : lowBitsClear v = true) : ∀ i < 22, (bchWork v).getLsbD i = false :=
  fun i hi => bchSteps_clear 21 v 11 (by omega) ((lowBitsClear_iff v).1 h) i (by omega)

/-- The bits of BCHCHK's result: the operand's above, the working copy's top bits in 10..1, and 0 (R82). -/
theorem bchchk_getLsbD (v : Word) (h : lowBitsClear v = true) (i : Nat) (hi : i < 32) :
    (bchchk v).getLsbD i =
      if 11 ≤ i then v.getLsbD i else if 1 ≤ i then (bchWork v).getLsbD (21 + i) else false := by
  have hv := (lowBitsClear_iff v).1 h
  have hw := bchWork_clear v h
  rw [bchchk, bchChk, BitVec.getLsbD_or, BitVec.getLsbD_setWidth, BitVec.getLsbD_extractLsb']
  split_ifs with h1 h2
  · simp [show ¬ i < 11 by omega]
  · rw [hv i (by omega)]; simp [show i < 11 by omega, hi]
  · obtain rfl : i = 0 := by omega
    rw [hv 0 (by omega), hw 21 (by omega)]; simp

/-- BCHCHK is linear over exclusive-or (R83). -/
theorem bchchk_xor (a b : Word) (ha : lowBitsClear a = true) (hb : lowBitsClear b = true) :
    bchchk (a ^^^ b) = bchchk a ^^^ bchchk b := by
  apply BitVec.eq_of_getLsbD_eq
  intro i hi
  rw [BitVec.getLsbD_xor, bchchk_getLsbD _ (lowBitsClear_xor a b ha hb) i hi, bchchk_getLsbD a ha i hi,
    bchchk_getLsbD b hb i hi, bchWork, bchSteps_xor]
  split_ifs <;> simp [bchWork]

/-- Adding 1 to a word with bit 0 clear only sets that bit (R86). -/
theorem add_one_eq_or (u : Word) (h : u.getLsbD 0 = false) : u + 1#32 = u ||| 1#32 := by
  refine BitVec.add_eq_or_of_and_eq_zero u 1#32 ?_
  apply BitVec.eq_of_getLsbD_eq
  intro i _
  rw [BitVec.getLsbD_and, BitVec.getLsbD_zero, BitVec.getLsbD_one]
  by_cases hi : i = 0
  · subst hi; rw [h]; simp
  · simp [hi]

theorem or_one_eq_xor (u : Word) (h : u.getLsbD 0 = false) : u ||| 1#32 = u ^^^ 1#32 := by
  apply BitVec.eq_of_getLsbD_eq
  intro i _
  rw [BitVec.getLsbD_or, BitVec.getLsbD_xor, BitVec.getLsbD_one]
  by_cases hi : i = 0
  · subst hi; rw [h]; simp
  · simp [hi]

/-- EVENPAR as an exclusive-or with the parity bit (R84, R86). -/
theorem evenpar_eq_xor (u : Word) (h : u.getLsbD 0 = false) :
    evenpar u = u ^^^ (if oddPopcount u then 1#32 else 0#32) := by
  unfold evenpar
  split_ifs
  · rw [add_one_eq_or u h, or_one_eq_xor u h]
  · rw [BitVec.xor_zero]

/-- EVENPAR's result has an even count of set bits (R84). -/
theorem evenpar_even (u : Word) (h : u.getLsbD 0 = false) : oddPopcount (evenpar u) = false := by
  rw [evenpar_eq_xor u h, oddPopcount_xor]
  cases oddPopcount u <;> rfl

theorem bchchk_bit0 (v : Word) (h : lowBitsClear v = true) : (bchchk v).getLsbD 0 = false := by
  rw [bchchk_getLsbD v h 0 (by omega)]; rfl

/-- BCHENC is linear over exclusive-or (R83). -/
theorem bchenc_xor (a b : Word) (ha : lowBitsClear a = true) (hb : lowBitsClear b = true) :
    bchenc (a ^^^ b) = bchenc a ^^^ bchenc b := by
  have hab := lowBitsClear_xor a b ha hb
  have h0 := bchchk_bit0 _ hab
  unfold bchenc
  rw [evenpar_eq_xor _ h0, evenpar_eq_xor _ (bchchk_bit0 a ha), evenpar_eq_xor _ (bchchk_bit0 b hb),
    bchchk_xor a b ha hb, oddPopcount_xor]
  cases oddPopcount (bchchk a) <;> cases oddPopcount (bchchk b) <;>
    simp only [Bool.xor_false, Bool.xor_true, Bool.not_false, Bool.not_true, if_true, Bool.false_eq_true, if_false,
      BitVec.xor_zero, xor_twice]
  · rw [BitVec.xor_assoc]
  · rw [BitVec.xor_assoc, BitVec.xor_comm (bchchk b), BitVec.xor_assoc]

/-- BCHENC keeps bits 31..11 of its operand (R85). -/
theorem bchenc_top (v : Word) (h : lowBitsClear v = true) (i : Nat) (h1 : 11 ≤ i) (h2 : i < 32) :
    (bchenc v).getLsbD i = v.getLsbD i := by
  rw [bchenc, evenpar_eq_xor _ (bchchk_bit0 v h), BitVec.getLsbD_xor, bchchk_getLsbD v h i h2, if_pos h1]
  split_ifs
  · rw [BitVec.getLsbD_one]; simp [show ¬ i = 0 by omega]
  · simp

/-- BCHENC's bits 10..1 are BCHCHK's (R85). -/
theorem bchenc_check (v : Word) (h : lowBitsClear v = true) (i : Nat) (h1 : 1 ≤ i) :
    (bchenc v).getLsbD i = (bchchk v).getLsbD i := by
  rw [bchenc, evenpar_eq_xor _ (bchchk_bit0 v h), BitVec.getLsbD_xor]
  split_ifs
  · rw [BitVec.getLsbD_one]; simp [show ¬ i = 0 by omega]
  · simp

/-- BCHENC's result has an even count of set bits (R85). -/
theorem bchenc_even (v : Word) (h : lowBitsClear v = true) : oddPopcount (bchenc v) = false :=
  evenpar_even _ (bchchk_bit0 v h)

/-- The operand is the top 21 bits of the codeword made from it. -/
theorem bchenc_and_top (v : Word) (h : lowBitsClear v = true) : bchenc v &&& 0xFFFFF800#32 = v := by
  apply BitVec.eq_of_getLsbD_eq
  intro i hi
  rw [BitVec.getLsbD_and, topMask_getLsbD]
  by_cases h1 : 11 ≤ i
  · rw [bchenc_top v h i h1 hi]; simp [h1, hi]
  · rw [(lowBitsClear_iff v).1 h i (by omega)]; simp [h1]

/-- The all-ones word is the codeword of the all-ones message (R85). -/
theorem bchenc_ones : bchenc 0xFFFFF800#32 = 0xFFFFFFFF#32 := by decide +kernel

/-- The idle codeword is the codeword of its own top 21 bits (R49). -/
theorem bchenc_idle : bchenc 0x7A89C000#32 = Config.idle := by decide +kernel

end Sys2Proof.Machine
end

