-- ==== Sys2Proof/Laws/Builders.lean ====
section
/-! SUPPORT. What the two builders put into a codeword: the address codeword's fields and slot (42_address_codeword.md
R91 to R94), the message codeword's nibbles (43_message_encoder.md R104, R105) and the cut into groups (R106). -/

namespace Sys2Proof.Machine

theorem addressPayload_getLsbD (address : BitVec 32) (functionCode : BitVec 8) (j : Nat) (hj : j < 20) :
    (addressPayload address functionCode).getLsbD j =
      if j < 2 then functionCode.getLsbD j else address.getLsbD (j + 1) := by
  rw [addressPayload, BitVec.getLsbD_setWidth, BitVec.getLsbD_or, BitVec.getLsbD_shiftLeft, BitVec.getLsbD_ushiftRight,
    BitVec.getLsbD_and, BitVec.getLsbD_setWidth]
  have h3 : (0x3#32).getLsbD j = decide (j < 2) := by
    rw [BitVec.getLsbD_ofNat, show (0x3 : Nat) = 2 ^ 2 - 1 from rfl, Nat.testBit_two_pow_sub_one]
    simp [show j < 32 by omega]
  rw [h3]
  split_ifs with h
  · simp [h, hj, show j < 32 by omega]
  · simp [h, hj, show j < 32 by omega, show 3 + (j - 2) = j + 1 by omega]

/-- The bits of ADDRCW's BCH operand (R91, R93). -/
theorem addressOperand_getLsbD (address : BitVec 32) (functionCode : BitVec 8) (i : Nat) (hi : i < 32) :
    (addressOperand address functionCode).getLsbD i =
      if i < 11 then false else if i < 13 then functionCode.getLsbD (i - 11)
      else if i < 31 then address.getLsbD (i - 10) else false := by
  rw [addressOperand, BitVec.getLsbD_shiftLeft, BitVec.getLsbD_setWidth]
  split_ifs with h1 h2 h3
  · simp [h1]
  · rw [addressPayload_getLsbD _ _ _ (by omega), if_pos (by omega)]; simp [h1, hi, show i - 11 < 32 by omega]
  · rw [addressPayload_getLsbD _ _ _ (by omega), if_neg (by omega), show i - 11 + 1 = i - 10 by omega]
    simp [h1, hi, show i - 11 < 32 by omega]
  · rw [BitVec.getLsbD_of_ge _ _ (by omega)]; simp

theorem addressOperand_clear (address : BitVec 32) (functionCode : BitVec 8) :
    lowBitsClear (addressOperand address functionCode) = true :=
  (lowBitsClear_iff _).2 fun i hi => by rw [addressOperand_getLsbD _ _ _ (by omega), if_pos hi]

/-- The bits of an address codeword above its check field (R94). -/
theorem addressCodeword_getLsbD (address : BitVec 32) (functionCode : BitVec 8) (i : Nat) (h1 : 11 ≤ i) (h2 : i < 32) :
    (addressCodeword address functionCode).getLsbD i =
      if i < 13 then functionCode.getLsbD (i - 11) else if i < 31 then address.getLsbD (i - 10) else false := by
  rw [addressCodeword, bchenc_top _ (addressOperand_clear _ _) i h1 h2, addressOperand_getLsbD _ _ _ h2, if_neg (by omega)]

theorem addressFrame_toNat (address : BitVec 32) : (addressFrame address).toNat = address.toNat % 8 := by
  rw [addressFrame, BitVec.toNat_setWidth, BitVec.toNat_and]
  rw [show (0x7#32).toNat = 2 ^ 3 - 1 from rfl, Nat.and_two_pow_sub_one_eq_mod]
  omega

/-- The address slot is twice the frame (R92). -/
theorem addressSlot_eq (address : BitVec 32) : addressSlot address = 2 * (address.toNat % 8) := by
  rw [addressSlot, addressFrame_toNat, Nat.mul_comm]

/-- A bit of five nibbles side by side. -/
theorem append5_getLsbD (a b c d e : BitVec 4) (i : Nat) :
    BitVec.getLsbD (w := 4 + 4 + 4 + 4 + 4) (a ++ b ++ c ++ d ++ e) i =
      if i < 4 then e.getLsbD i else if i < 8 then d.getLsbD (i - 4) else if i < 12 then c.getLsbD (i - 8)
      else if i < 16 then b.getLsbD (i - 12) else a.getLsbD (i - 16) := by
  simp only [BitVec.getLsbD_append]
  split_ifs <;> first | rfl | omega

/-- The payload of a group is the concatenation of its five nibbles (R52). -/
theorem groupPayload_eq_append (group : List Byte) :
    groupPayload group = groupNibble group 0 ++ groupNibble group 1 ++ groupNibble group 2 ++ groupNibble group 3 ++
      groupNibble group 4 := by
  simp only [groupPayload, List.foldl_cons, List.foldl_nil]
  generalize groupNibble group 0 = a, groupNibble group 1 = b, groupNibble group 2 = c, groupNibble group 3 = d,
    groupNibble group 4 = e
  apply BitVec.eq_of_getLsbD_eq
  intro i hi
  rw [show BitVec.getLsbD (w := 20) (a ++ b ++ c ++ d ++ e) i = _ from append5_getLsbD a b c d e i]
  interval_cases i <;> simp

/-- Nibble j of a group's payload (R52). -/
theorem groupPayload_nibble (group : List Byte) (j : Nat) (hj : j < 5) :
    (groupPayload group).extractLsb' (16 - 4 * j) 4 = groupNibble group j := by
  rw [groupPayload_eq_append]
  apply BitVec.eq_of_getLsbD_eq
  intro i hi
  rw [BitVec.getLsbD_extractLsb', show ∀ k, BitVec.getLsbD (w := 20) (groupNibble group 0 ++ groupNibble group 1 ++
    groupNibble group 2 ++ groupNibble group 3 ++ groupNibble group 4) k = _ from append5_getLsbD _ _ _ _ _]
  interval_cases j <;> interval_cases i <;> rfl

theorem groupOperand_getLsbD (group : List Byte) (i : Nat) (hi : i < 32) :
    (groupOperand group).getLsbD i =
      if i < 11 then false else if i < 31 then (groupPayload group).getLsbD (i - 11) else true := by
  have hm : Config.msgFlag.getLsbD i = decide (i = 31) := by
    revert i; decide
  rw [groupOperand, BitVec.getLsbD_or, BitVec.getLsbD_shiftLeft, BitVec.getLsbD_setWidth, hm]
  split_ifs with h1 h2
  · simp [h1]; omega
  · simp [h1, hi, show ¬ i = 31 by omega, show i - 11 < 32 by omega]
  · simp [show i = 31 by omega]

theorem groupOperand_clear (group : List Byte) : lowBitsClear (groupOperand group) = true :=
  (lowBitsClear_iff _).2 fun i hi => by rw [groupOperand_getLsbD _ _ (by omega), if_pos hi]

/-- Nibble field j of a message codeword (R48, R104). -/
theorem messageCodeword_nibble (group : List Byte) (j : Nat) (hj : j < 5) :
    (messageCodeword group).extractLsb' (27 - 4 * j) 4 = groupNibble group j := by
  rw [← groupPayload_nibble group j hj]
  apply BitVec.eq_of_getLsbD_eq
  intro i hi
  simp only [BitVec.getLsbD_extractLsb']
  rw [messageCodeword, bchenc_top _ (groupOperand_clear _) _ (by omega) (by omega),
    groupOperand_getLsbD _ _ (by omega), if_neg (by omega), if_pos (by omega),
    show 27 - 4 * j + i - 11 = 16 - 4 * j + i by omega]

/-- The type flag of a message codeword (R104). -/
theorem messageCodeword_flag (group : List Byte) : (messageCodeword group).getLsbD 31 = true := by
  rw [messageCodeword, bchenc_top _ (groupOperand_clear _) _ (by omega) (by omega), groupOperand_getLsbD _ _ (by omega)]
  rfl

theorem groupNibble_of_lt (group : List Byte) (j : Nat) (h : j < group.length) :
    groupNibble group j = rev4 (charnib group[j]) := by
  simp [groupNibble, h]

theorem groupNibble_of_ge (group : List Byte) (j : Nat) (h : group.length ≤ j) : groupNibble group j = 0#4 := by
  simp [groupNibble, h]

theorem messageCodewords_length (text : List Byte) : (messageCodewords text).length = (text.length + 4) / 5 := by
  simp [messageCodewords, codewordCount]

theorem messageCodewords_getElem (text : List Byte) (i : Nat) (h : i < (messageCodewords text).length) :
    (messageCodewords text)[i] = messageCodeword ((text.drop (5 * i)).take 5) := by
  simp [messageCodewords, textGroup]

/-- Every group of a text has 1 to 5 characters (R106). -/
theorem textGroup_length (text : List Byte) (i : Nat) (h : i < (text.length + 4) / 5) :
    1 ≤ ((text.drop (5 * i)).take 5).length ∧ ((text.drop (5 * i)).take 5).length ≤ 5 := by
  simp only [List.length_take, List.length_drop]; omega

end Sys2Proof.Machine
end

