-- ==== Sys2Proof/Laws/Codec.lean ====
section
/-! SUPPORT. Bytes and numbers, reading a word back from its bytes, and the bits of the two codeword formats: the small
facts behind "decode of encode" (30_encoding.md R64). -/

namespace Sys2Proof

@[simp] theorem beBytes_length (k n : Nat) : (beBytes k n).length = k := by
  induction k with
  | zero => rfl
  | succ k ih => simp [beBytes, ih]

theorem foldl_bytes (bs : List Byte) : ∀ acc : Nat,
    bs.foldl (fun acc b => acc * 256 + b.toNat) acc = acc * 256 ^ bs.length + beValue bs := by
  induction bs with
  | nil => simp [beValue]
  | cons b bs ih =>
    intro acc
    simp only [List.foldl_cons, beValue, List.length_cons, ih (acc * 256 + b.toNat), ih (0 * 256 + b.toNat)]
    rw [Nat.pow_succ]; ring

theorem beValue_cons (b : Byte) (bs : List Byte) : beValue (b :: bs) = b.toNat * 256 ^ bs.length + beValue bs := by
  rw [beValue, List.foldl_cons, foldl_bytes]; simp

/-- The number of a byte list is below its range. -/
theorem beValue_lt (bs : List Byte) : beValue bs < 256 ^ bs.length := by
  induction bs with
  | nil => simp [beValue]
  | cons b bs ih =>
    rw [beValue_cons, List.length_cons, Nat.pow_succ]
    have hb : b.toNat ≤ 255 := by have := b.isLt; omega
    have := Nat.mul_le_mul_right (256 ^ bs.length) hb
    omega

/-- The bytes of a number spell it again, modulo their range. -/
theorem beValue_beBytes (k n : Nat) : beValue (beBytes k n) = n % 256 ^ k := by
  induction k with
  | zero => simp [beBytes, beValue, Nat.mod_one]
  | succ k ih =>
    rw [beBytes, beValue_cons, ih, beBytes_length, BitVec.toNat_ofNat, show 256 ^ (k + 1) = 256 ^ k * 256 from rfl,
      Nat.mod_mul, show (2 : Nat) ^ 8 = 256 from rfl, Nat.mul_comm, Nat.add_comm]

/-- The number of a byte list gives its bytes back. -/
theorem beBytes_beValue (bs : List Byte) : beBytes bs.length (beValue bs) = bs := by
  induction bs with
  | nil => rfl
  | cons b bs ih =>
    have hlt := beValue_lt bs
    rw [List.length_cons, beBytes, beValue_cons]
    have hpos : 0 < 256 ^ bs.length := Nat.pow_pos (by omega)
    rw [show b.toNat * 256 ^ bs.length + beValue bs = beValue bs + 256 ^ bs.length * b.toNat by ring,
      Nat.add_mul_div_left _ _ hpos, Nat.div_eq_of_lt hlt, Nat.zero_add]
    congr 1
    · simp
    · have hmod : ∀ n m : Nat, n % 256 ^ bs.length = m % 256 ^ bs.length →
          beBytes bs.length n = beBytes bs.length m := by
        intro n m h
        generalize bs.length = k at h
        induction k with
        | zero => rfl
        | succ k ihk =>
          rw [Nat.pow_succ, Nat.mod_mul, Nat.mod_mul] at h
          have hn := Nat.mod_lt n (Nat.pow_pos (n := k) (by omega : 0 < 256))
          have hm := Nat.mod_lt m (Nat.pow_pos (n := k) (by omega : 0 < 256))
          have h1 : n % 256 ^ k = m % 256 ^ k := by
            have := congrArg (· % 256 ^ k) h
            simpa [Nat.add_mul_mod_self_left] using this
          rw [beBytes, beBytes, ihk h1]
          congr 1
          apply BitVec.eq_of_toNat_eq
          rw [BitVec.toNat_ofNat, BitVec.toNat_ofNat]
          have h2 : 256 ^ k * (n / 256 ^ k % 256) = 256 ^ k * (m / 256 ^ k % 256) := by omega
          exact Nat.eq_of_mul_eq_mul_left (Nat.pow_pos (by omega)) h2
      rw [hmod _ (beValue bs) (by rw [Nat.add_mul_mod_self_left]), ih]

/-- A word of `width` bits written as k bytes is read back, with the rest left. -/
theorem withWord_beBytes {k width : Nat} (v : BitVec width) (rest : List Byte) (f : BitVec width → List Byte → DecodeResult)
    (h : 2 ^ width ≤ 256 ^ k) : withWord k width (beBytes k v.toNat ++ rest) f = f v rest := by
  have hlt : v.toNat < 256 ^ k := lt_of_lt_of_le v.isLt h
  unfold withWord
  rw [if_neg (by simp), List.take_left' (beBytes_length k _), List.drop_left' (beBytes_length k _), beValue_beBytes,
    Nat.mod_eq_of_lt hlt, if_pos v.isLt]
  simp

/-- What a successful read of a word says of the bytes. -/
theorem withWord_ok {k width : Nat} {bs : List Byte} {f : BitVec width → List Byte → DecodeResult} {r : Instr × List Byte}
    (h : withWord k width bs f = .ok r) :
    ∃ (v : BitVec width) (rest : List Byte), bs = beBytes k v.toNat ++ rest ∧ f v rest = .ok r := by
  unfold withWord at h
  split_ifs at h with h1 h2
  refine ⟨_, _, ?_, h⟩
  have hl : (bs.take k).length = k := by simp; omega
  have hb := beBytes_beValue (bs.take k)
  rw [hl] at hb
  rw [BitVec.toNat_ofNat, Nat.mod_eq_of_lt h2, hb, List.take_append_drop]

theorem withBytes_append {n : Nat} (xs rest : List Byte) (f : List Byte → List Byte → DecodeResult) (h : xs.length = n) :
    withBytes n (xs ++ rest) f = f xs rest := by
  unfold withBytes
  rw [if_neg (by simp; omega), List.take_left' h, List.drop_left' h]

theorem withBytes_ok {n : Nat} {bs : List Byte} {f : List Byte → List Byte → DecodeResult} {r : Instr × List Byte}
    (h : withBytes n bs f = .ok r) :
    ∃ xs rest, xs.length = n ∧ bs = xs ++ rest ∧ f xs rest = .ok r := by
  unfold withBytes at h
  split_ifs at h with h1
  exact ⟨_, _, by simp; omega, (List.take_append_drop n bs).symm, h⟩

theorem withWords_append (ws : List Word) : ∀ (rest : List Byte) (f : List Word → List Byte → DecodeResult),
    withWords ws.length ((ws.flatMap fun w => beBytes 4 w.toNat) ++ rest) f = f ws rest := by
  induction ws with
  | nil => exact fun _ _ => rfl
  | cons w ws ih =>
    intro rest f
    rw [List.length_cons, List.flatMap_cons, List.append_assoc, withWords, withWord_beBytes _ _ _ (by norm_num), ih]

theorem withWords_ok {m : Nat} : ∀ {bs : List Byte} {f : List Word → List Byte → DecodeResult} {r : Instr × List Byte},
    withWords m bs f = .ok r →
    ∃ ws rest, ws.length = m ∧ bs = (ws.flatMap fun w => beBytes 4 w.toNat) ++ rest ∧ f ws rest = .ok r := by
  induction m with
  | zero => exact fun {bs f r} h => ⟨[], bs, rfl, rfl, h⟩
  | succ m ih =>
    intro bs f r h
    rw [withWords] at h
    obtain ⟨w, rest, rfl, h1⟩ := withWord_ok h
    obtain ⟨ws, rest', hl, rfl, h2⟩ := ih h1
    exact ⟨w :: ws, rest', by simp [hl], by simp, h2⟩

/-- The bits of an address codeword written from its fields (R47). -/
theorem addrBits_getLsbD (t : BitVec 1) (a : BitVec 18) (f : BitVec 2) (c : BitVec 10) (p : BitVec 1) (i : Nat) :
    (addrBits t a f c p).getLsbD i =
      if i < 1 then p.getLsbD i else if i < 11 then c.getLsbD (i - 1) else if i < 13 then f.getLsbD (i - 11)
      else if i < 31 then a.getLsbD (i - 13) else t.getLsbD (i - 31) := by
  show BitVec.getLsbD (w := 1 + 18 + 2 + 10 + 1) (t ++ a ++ f ++ c ++ p) i = _
  simp only [BitVec.getLsbD_append]
  split_ifs <;> first | rfl | omega

/-- The bits of a message codeword written from its fields (R48). -/
theorem msgBits_getLsbD (t : BitVec 1) (n0 n1 n2 n3 n4 : BitVec 4) (c : BitVec 10) (p : BitVec 1) (i : Nat) :
    (msgBits t n0 n1 n2 n3 n4 c p).getLsbD i =
      if i < 1 then p.getLsbD i else if i < 11 then c.getLsbD (i - 1) else if i < 15 then n4.getLsbD (i - 11)
      else if i < 19 then n3.getLsbD (i - 15) else if i < 23 then n2.getLsbD (i - 19)
      else if i < 27 then n1.getLsbD (i - 23) else if i < 31 then n0.getLsbD (i - 27) else t.getLsbD (i - 31) := by
  show BitVec.getLsbD (w := 1 + 4 + 4 + 4 + 4 + 4 + 10 + 1) (t ++ n0 ++ n1 ++ n2 ++ n3 ++ n4 ++ c ++ p) i = _
  simp only [BitVec.getLsbD_append]
  split_ifs <;> first | rfl | omega

end Sys2Proof
end

