-- ==== Sys2Proof/Laws/Memory.lean ====
section
/-! SUPPORT. The laws of TEXT as a memory (20_memory.md R31) and of reading a complete request (R151). -/

namespace Sys2Proof.Machine

/-- A read after a write: the character written at its own index, the old one everywhere else. -/
theorem read_write (mem : Memory) (i : Nat) (c : Byte) (k : Nat) :
    Memory.read (Memory.write mem i c) k = if k = i then some c else Memory.read mem k := by
  induction mem with
  | nil => simp only [Memory.write, Memory.read]
  | cons cell rest ih =>
    obtain ⟨a, b⟩ := cell
    simp only [Memory.write]
    split_ifs with h1 h2 <;> simp only [Memory.read, ih] <;> split_ifs <;> first | rfl | omega

/-- The first index of a text, if it has one, is above every bound below all of it. -/
theorem wf_cons (a : Nat) (b : Byte) (rest : Memory) :
    Memory.wf ((a, b) :: rest) = true ↔ Memory.wf rest = true ∧ ∀ cell ∈ rest.head?, a < cell.1 := by
  cases rest with
  | nil => simp [Memory.wf]
  | cons cell tail => simp [Memory.wf, and_comm]

/-- A write keeps the canonical form. -/
theorem wf_write (mem : Memory) (i : Nat) (c : Byte) (h : Memory.wf mem = true) :
    Memory.wf (Memory.write mem i c) = true := by
  induction mem with
  | nil => rfl
  | cons cell rest ih =>
    obtain ⟨a, b⟩ := cell
    obtain ⟨hr, hb⟩ := (wf_cons a b rest).1 h
    simp only [Memory.write]
    split_ifs with h1 h2
    · exact (wf_cons i c _).2 ⟨h, by simpa using h1⟩
    · subst h2; exact (wf_cons i c rest).2 ⟨hr, hb⟩
    · refine (wf_cons a b _).2 ⟨ih hr, ?_⟩
      cases rest with
      | nil => simp only [Memory.write, List.head?_cons, Option.mem_def, Option.some.injEq, forall_eq']; omega
      | cons cell' tail =>
        obtain ⟨a', b'⟩ := cell'
        have : a < a' := by simpa using hb
        simp only [Memory.write]
        split_ifs <;> simp only [List.head?_cons, Option.mem_def, Option.some.injEq, forall_eq'] <;> omega

/-- The cells of a text after a write are the old ones and the one written. -/
theorem mem_write {mem : Memory} {i : Nat} {c : Byte} {cell : Host.Cell} (h : cell ∈ Memory.write mem i c) :
    cell = (i, c) ∨ cell ∈ mem := by
  induction mem with
  | nil => simpa [Memory.write] using h
  | cons head rest ih =>
    obtain ⟨a, b⟩ := head
    simp only [Memory.write] at h
    split_ifs at h <;> simp only [List.mem_cons] at h ⊢ <;> tauto

/-- Writing a text keeps the canonical form. -/
theorem wf_writeText (text : List Byte) : ∀ (mem : Memory) (i : Nat), Memory.wf mem = true →
    Memory.wf (Memory.writeText mem i text) = true := by
  induction text with
  | nil => exact fun _ _ h => h
  | cons c cs ih => exact fun mem i h => ih _ _ (wf_write mem i c h)

/-- The cells of a text after writing characters at i, i+1, … are old ones or lie in that range. -/
theorem mem_writeText (text : List Byte) : ∀ {mem : Memory} {i : Nat} {cell : Host.Cell},
    cell ∈ Memory.writeText mem i text → cell ∈ mem ∨ cell.1 < i + text.length := by
  induction text with
  | nil => exact fun h => .inl h
  | cons c cs ih =>
    intro mem i cell h
    rcases ih h with h | h
    · rcases mem_write h with rfl | h
      · right; simp
      · exact .inl h
    · right; simp only [List.length_cons]; omega

/-- A read after writing a text from index i on. -/
theorem read_writeText (text : List Byte) : ∀ (mem : Memory) (i k : Nat),
    Memory.read (Memory.writeText mem i text) k =
      if i ≤ k ∧ k < i + text.length then text[k - i]? else Memory.read mem k := by
  induction text with
  | nil => intro mem i k; rw [if_neg (by simp)]; rfl
  | cons c cs ih =>
    intro mem i k
    simp only [Memory.writeText, ih, read_write, List.length_cons]
    by_cases h : k = i
    · subst h; rw [if_neg (by omega), if_pos rfl, if_pos ⟨le_rfl, by omega⟩]; simp
    · by_cases h' : i + 1 ≤ k ∧ k < i + 1 + cs.length
      · rw [if_pos h', if_pos (by omega), show k - i = (k - (i + 1)) + 1 by omega, List.getElem?_cons_succ]
      · rw [if_neg h', if_neg h, if_neg (by omega)]

/-- What reading n characters answers: they are all there, in order. -/
theorem readText_eq_some {mem : Memory} {n : Nat} : ∀ {i : Nat} {text : List Byte},
    Memory.readText mem i n = some text ↔ text.length = n ∧ ∀ k < n, Memory.read mem (i + k) = text[k]? := by
  induction n with
  | zero =>
    intro i text
    simp only [Memory.readText, Option.some.injEq, List.length_eq_zero_iff, Nat.not_lt_zero, false_implies, implies_true,
      and_true]
    exact eq_comm
  | succ n ih =>
    intro i text
    simp only [Memory.readText]
    constructor
    · intro h
      split at h
      · rename_i c cs hc hcs
        obtain ⟨hl, hk⟩ := ih.1 hcs
        obtain rfl := Option.some.inj h
        refine ⟨by simp [hl], fun k hk' => ?_⟩
        cases k with
        | zero => simpa using hc
        | succ k =>
          rw [List.getElem?_cons_succ, ← hk k (by omega)]
          congr 1; omega
      · cases h
    · rintro ⟨hl, hk⟩
      cases text with
      | nil => simp at hl
      | cons c cs =>
        have h0 := hk 0 (by omega)
        have h1 : Memory.readText mem (i + 1) n = some cs :=
          ih.2 ⟨by simpa using hl, fun k hk' => by
            have := hk (k + 1) (by omega)
            rw [List.getElem?_cons_succ] at this
            rw [← this]; congr 1; omega⟩
        simp only [Nat.add_zero, List.getElem?_cons_zero] at h0
        rw [h0, h1]

/-- Reading n characters fails exactly when one of them has no value. -/
theorem readText_isSome (mem : Memory) (n : Nat) : ∀ i : Nat,
    (Memory.readText mem i n).isSome = true ↔ ∀ k < n, (Memory.read mem (i + k)).isSome = true := by
  induction n with
  | zero => simp [Memory.readText]
  | succ n ih =>
    intro i
    simp only [Memory.readText]
    constructor
    · intro h k hk
      split at h
      · rename_i c cs hc hcs
        cases k with
        | zero => simp [hc]
        | succ k =>
          have := (ih (i + 1)).1 (by simp [hcs]) k (by omega)
          rwa [show i + (k + 1) = i + 1 + k by omega]
      · cases h
    · intro h
      have h0 := h 0 (by omega)
      have h1 := (ih (i + 1)).2 fun k hk => by
        have := h (k + 1) (by omega)
        rwa [show i + 1 + k = i + (k + 1) by omega]
      obtain ⟨c, hc⟩ := Option.isSome_iff_exists.1 h0
      obtain ⟨cs, hcs⟩ := Option.isSome_iff_exists.1 h1
      simp only [Nat.add_zero] at hc
      simp [hc, hcs]

/-- The text read back after it has been written at 0 (R31). -/
theorem readText_writeText (mem : Memory) (text : List Byte) :
    Memory.readText (Memory.writeText mem 0 text) 0 text.length = some text :=
  readText_eq_some.2 ⟨rfl, fun k hk => by rw [read_writeText, if_pos (by omega)]; simp⟩

/-- A presented request is found complete and as it was presented (R63, R151). -/
theorem readRequest_presentRequest (q : Request) (s : State) (h : q.text.length ≤ Config.textLenMax) :
    readRequest (presentRequest q s).req = .ok q := by
  simp [readRequest, presentRequest, State.setReq, h, readText_writeText]

end Sys2Proof.Machine
end

