-- ==== Sys2Proof/Laws/Slots.lean ====
section
/-! SUPPORT. Reading one slot after each operation on the slot array (44_batch_assembler.md, 45_postprocessor.md), and
what a transaction's slots hold in the end (46_encode_transaction.md R149). -/

namespace Sys2Proof.Machine

@[simp] theorem idleSlots_getElem (k : Nat) (h : k < 32) : idleSlots[k] = Config.idle := by
  simp [idleSlots]

/-- A slot after PLACE (R117). -/
theorem placeSlot_getElem (k : Nat) (v : Word) (slots : Slots) (j : Nat) (h : j < 32) :
    (placeSlot k v slots)[j] = if j = k then v else slots[j] := by
  unfold placeSlot
  by_cases hk : k ≤ 31
  · rw [dif_pos hk, Vector.getElem_set]
    by_cases h' : k = j
    · simp [h']
    · rw [if_neg h', if_neg (fun h => h' h.symm)]
  · rw [dif_neg hk, if_neg (by omega)]

/-- A slot after placing a list of codewords (R119). -/
theorem placeAll_getElem (vs : List Word) : ∀ (cursor : Nat) (slots : Slots) (j : Nat) (h : j < 32),
    (placeAll cursor vs slots)[j] =
      if h' : cursor ≤ j ∧ j < cursor + vs.length then vs[j - cursor] else slots[j] := by
  induction vs with
  | nil => intro cursor slots j h; rw [dif_neg (by simp)]; rfl
  | cons v vs ih =>
    intro cursor slots j h
    rw [placeAll, ih]
    by_cases h1 : cursor + 1 ≤ j ∧ j < cursor + 1 + vs.length
    · rw [dif_pos h1, dif_pos (by simp only [List.length_cons]; omega)]
      have hj : j - cursor = (j - (cursor + 1)) + 1 := by omega
      simp only [hj, List.getElem_cons_succ]
    · rw [dif_neg h1, placeSlot_getElem]
      by_cases h2 : j = cursor
      · subst h2
        rw [if_pos rfl, dif_pos (by simp)]
        simp
      · rw [if_neg h2, dif_neg (by simp only [List.length_cons]; omega)]

/-- A slot after ASSEMBLE (R119, R122). -/
theorem assembleSlots_getElem (aslot : Nat) (acw : Word) (mcw : List Word) (j : Nat) (h : j < 32) :
    (assembleSlots aslot acw mcw)[j] =
      if h' : aslot + 1 ≤ j ∧ j < aslot + 1 + mcw.length then mcw[j - (aslot + 1)]
      else if j = aslot then acw else Config.idle := by
  rw [assembleSlots, placeAll_getElem]
  split_ifs <;> simp_all [placeSlot_getElem]

/-- A slot after the copy of CopyBatch1 (R127). -/
theorem copyFirstBatch_getElem (slots : Slots) (j : Nat) (h : j < 32) :
    (copyFirstBatch slots)[j] = slots[j % 16] := by
  simp [copyFirstBatch]

/-- A slot after INVERT (R136). -/
theorem invertSlots_getElem (b : Bool) (slots : Slots) (j : Nat) (h : j < 32) :
    (invertSlots b slots)[j] = if b then ~~~slots[j] else slots[j] := by
  unfold invertSlots
  cases b
  · rfl
  · simp only [if_true, Vector.getElem_ofFn]
    rw [show Config.inv = BitVec.allOnes 32 from rfl, BitVec.xor_allOnes]

@[simp] theorem firstBatch_getElem (slots : Slots) (i : Nat) (h : i < 16) : (firstBatch slots)[i] = slots[i] := by
  simp [firstBatch]

@[simp] theorem secondBatch_getElem (slots : Slots) (i : Nat) (h : i < 16) :
    (secondBatch slots)[i] = slots[16 + i] := by
  simp [secondBatch]

/-- Inverting twice gives the slots back (R137). -/
theorem invertSlots_twice (slots : Slots) : invertSlots true (invertSlots true slots) = slots := by
  apply Vector.ext
  intro k hk
  rw [invertSlots_getElem, invertSlots_getElem]; simp

/-- The slots of DISPOSE: unchanged, or the copy of Batch 1 (R130). -/
theorem disposeSlots_cases (highest : Nat) (policy : BitVec 8) (slots : Slots) :
    (disposeSlots highest policy slots = (.two, slots) ∧ 16 ≤ highest) ∨
    (disposeSlots highest policy slots = (.two, copyFirstBatch slots) ∧ highest < 16 ∧ policy = 1#8) ∨
    (disposeSlots highest policy slots = (.one, slots) ∧ highest < 16 ∧ policy ≠ 1#8) := by
  unfold disposeSlots
  split_ifs with h1 h2 h3
  · exact .inl ⟨rfl, h1⟩
  · exact .inr (.inr ⟨rfl, by omega, by rw [h2]; decide⟩)
  · exact .inr (.inl ⟨rfl, by omega, h3⟩)
  · exact .inr (.inr ⟨rfl, by omega, h3⟩)

/-- Four bytes from offset 4*i of the bytes of a list of words are SERIALIZE of word i. -/
theorem flatMap_serialize_word (ws : List Word) : ∀ (i : Nat) (h : i < ws.length),
    ((ws.flatMap serialize).drop (4 * i)).take 4 = serialize ws[i] := by
  induction ws with
  | nil => intro i h; cases h
  | cons w ws ih =>
    intro i h
    cases i with
    | zero => rfl
    | succ i =>
      rw [List.flatMap_cons, show 4 * (i + 1) = (serialize w).length + 4 * i by simp [serialize]; omega,
        List.drop_length_add_append]
      exact ih i (by simpa using h)

/-- The four bytes of slot i in the byte view are SERIALIZE of its word (R36, R139). -/
theorem byteView_slot (b : Batch) (i : Nat) (h : i < 16) :
    ((byteView b).drop (4 * i)).take 4 = serialize b[i] := by
  rw [byteView, flatMap_serialize_word b.toList i (by simpa using h)]
  simp

/-- The characters of a transaction are the first 40 (R144). -/
theorem take_truncateLen (text : List Byte) : text.take (truncateLen text.length) = text.take 40 := by
  unfold truncateLen Config.textMax
  rcases Nat.le_total text.length 40 with h | h
  · rw [Nat.min_eq_left h, List.take_length, List.take_of_length_le h]
  · rw [Nat.min_eq_right h]

/-- A validated request's slots and count, over its first 40 characters (R145). -/
theorem disposedSlots_eq (a : BitVec 32) (f p : BitVec 8) (v : Bool) (text : List Byte) :
    disposedSlots ⟨a, f, p, v, text⟩ =
      disposeSlots (highestSlot (addressSlot a) (messageCodewords (text.take 40)).length) p
        (assembleSlots (addressSlot a) (addressCodeword a f) (messageCodewords (text.take 40))) := by
  unfold disposedSlots
  simp only [take_truncateLen]

/-- A slot of a validated request's array before inversion: the assembled one, or the copy of Batch 1 (R127, R149). -/
theorem disposedSlots_getElem (a : BitVec 32) (f p : BitVec 8) (v : Bool) (text : List Byte) (j : Nat) (h : j < 32) :
    (disposedSlots ⟨a, f, p, v, text⟩).2[j] =
      if p = 1#8 ∧ 2 * (a.toNat % 8) + (min text.length 40 + 4) / 5 < 16 then
        (assembleSlots (addressSlot a) (addressCodeword a f) (messageCodewords (text.take 40)))[j % 16]
      else (assembleSlots (addressSlot a) (addressCodeword a f) (messageCodewords (text.take 40)))[j] := by
  have hs := addressSlot_eq a
  have hm := messageCodewords_length (text.take 40)
  rw [List.length_take, Nat.min_comm] at hm
  rw [disposedSlots_eq]
  rcases disposeSlots_cases (highestSlot (addressSlot a) (messageCodewords (text.take 40)).length) p
    (assembleSlots (addressSlot a) (addressCodeword a f) (messageCodewords (text.take 40))) with
    ⟨e, h1⟩ | ⟨e, h1, h2⟩ | ⟨e, h1, h2⟩ <;> unfold highestSlot at h1 <;> simp only [e]
  · rw [if_neg (by omega)]
  · rw [if_pos ⟨h2, by omega⟩, copyFirstBatch_getElem]
  · rw [if_neg fun h => h2 h.1]

/-- The count of a validated request: two exactly when the message reaches Batch 2 or a copy was asked for (R126 to
R129). -/
theorem disposedSlots_count (a : BitVec 32) (f p : BitVec 8) (v : Bool) (text : List Byte) :
    (disposedSlots ⟨a, f, p, v, text⟩).1 = .two ↔
      (16 ≤ 2 * (a.toNat % 8) + (min text.length 40 + 4) / 5 ∨ p = 1#8) := by
  have hs := addressSlot_eq a
  have hm := messageCodewords_length (text.take 40)
  rw [List.length_take, Nat.min_comm] at hm
  rw [disposedSlots_eq]
  rcases disposeSlots_cases (highestSlot (addressSlot a) (messageCodewords (text.take 40)).length) p
    (assembleSlots (addressSlot a) (addressCodeword a f) (messageCodewords (text.take 40))) with
    ⟨e, h1⟩ | ⟨e, h1, h2⟩ | ⟨e, h1, h2⟩ <;> unfold highestSlot at h1 <;> rw [e]
  · exact ⟨fun _ => .inl (by omega), fun _ => rfl⟩
  · exact ⟨fun _ => .inr h2, fun _ => rfl⟩
  · refine ⟨fun h => (by cases h), fun h => absurd h ?_⟩
    rintro (h | h)
    · omega
    · exact h2 h

/-- A start on a complete request: the one transaction on it (R145, R151). -/
theorem startTransaction_of_ok {s : State} {q : Request} (h : readRequest s.req = .ok q) :
    startTransaction s = .next (transactionOn q s) := by
  rw [startTransaction, h]

/-- A start answers a next state only through a complete request (R151). -/
theorem startTransaction_next {s t : State} (h : startTransaction s = .next t) :
    ∃ q, readRequest s.req = .ok q ∧ t = transactionOn q s := by
  unfold startTransaction at h
  split at h
  · rename_i q hq; cases h; exact ⟨q, hq, rfl⟩
  · cases h

end Sys2Proof.Machine
end

