-- ==== Sys2Proof/Laws/State.lean ====
section
/-! SUPPORT. One lemma per setter and field of State, so that no later proof unfolds a record update. -/

namespace Sys2Proof.Machine

variable (s : State)

@[simp] theorem setReq_req (r : Req) : (s.setReq r).req = r := rfl
@[simp] theorem setReq_rsp (r : Req) : (s.setReq r).rsp = s.rsp := rfl
@[simp] theorem setReq_work (r : Req) : (s.setReq r).work = s.work := rfl
@[simp] theorem setReq_result (r : Req) : (s.setReq r).result = s.result := rfl
@[simp] theorem setReq_pending (r : Req) : (s.setReq r).pending = s.pending := rfl

@[simp] theorem setRsp_req (r : Rsp) : (s.setRsp r).req = s.req := rfl
@[simp] theorem setRsp_rsp (r : Rsp) : (s.setRsp r).rsp = r := rfl
@[simp] theorem setRsp_work (r : Rsp) : (s.setRsp r).work = s.work := rfl
@[simp] theorem setRsp_result (r : Rsp) : (s.setRsp r).result = s.result := rfl
@[simp] theorem setRsp_pending (r : Rsp) : (s.setRsp r).pending = s.pending := rfl

@[simp] theorem setWork_req (w : Work) : (s.setWork w).req = s.req := rfl
@[simp] theorem setWork_rsp (w : Work) : (s.setWork w).rsp = s.rsp := rfl
@[simp] theorem setWork_work (w : Work) : (s.setWork w).work = w := rfl
@[simp] theorem setWork_result (w : Work) : (s.setWork w).result = s.result := rfl
@[simp] theorem setWork_pending (w : Work) : (s.setWork w).pending = s.pending := rfl

@[simp] theorem setResult_req (r : Result) : (s.setResult r).req = s.req := rfl
@[simp] theorem setResult_rsp (r : Result) : (s.setResult r).rsp = s.rsp := rfl
@[simp] theorem setResult_work (r : Result) : (s.setResult r).work = s.work := rfl
@[simp] theorem setResult_result (r : Result) : (s.setResult r).result = r := rfl
@[simp] theorem setResult_pending (r : Result) : (s.setResult r).pending = s.pending := rfl

@[simp] theorem setPending_req (p : List HostAction) : (s.setPending p).req = s.req := rfl
@[simp] theorem setPending_rsp (p : List HostAction) : (s.setPending p).rsp = s.rsp := rfl
@[simp] theorem setPending_work (p : List HostAction) : (s.setPending p).work = s.work := rfl
@[simp] theorem setPending_result (p : List HostAction) : (s.setPending p).result = s.result := rfl
@[simp] theorem setPending_pending (p : List HostAction) : (s.setPending p).pending = p := rfl

/-- `raise` writes RSP and nothing else (R163). -/
theorem raise_frame (kind : ErrorKind) :
    (raise kind s).rsp = .err kind ∧ (raise kind s).req = s.req ∧ (raise kind s).work = s.work ∧
      (raise kind s).result = s.result ∧ (raise kind s).pending = s.pending :=
  ⟨rfl, rfl, rfl, rfl, rfl⟩

/-- `respond` writes RSP and nothing else (R145). -/
theorem respond_frame (count : BatchCount) (slots : Slots) :
    (respond count slots s).rsp = .ok count (firstBatch slots) (secondBatch slots) ∧
      (respond count slots s).req = s.req ∧ (respond count slots s).work = s.work ∧
      (respond count slots s).result = s.result ∧ (respond count slots s).pending = s.pending :=
  ⟨rfl, rfl, rfl, rfl, rfl⟩

@[simp] theorem finish_req : (finish s).req = s.req := rfl
@[simp] theorem finish_rsp : (finish s).rsp = s.rsp := rfl
@[simp] theorem finish_work : (finish s).work = Work.fresh := rfl
@[simp] theorem finish_result : (finish s).result = s.result := rfl
@[simp] theorem finish_pending : (finish s).pending = s.pending := rfl

/-- What one transaction replaces: RSP and the call-scoped values, nothing else (R17, R22). -/
theorem transactionOn_eq (q : Request) :
    transactionOn q s = { s with rsp := (transactionOn q s).rsp, work := Work.fresh } := by
  unfold transactionOn; split <;> rfl

/-- The response of a transaction, from the request alone (R5, R26). -/
theorem transactionOn_rsp (q : Request) (s' : State) : (transactionOn q s).rsp = (transactionOn q s').rsp := by
  unfold transactionOn; split <;> rfl

end Sys2Proof.Machine
end

