-- ==== Sys2Proof/Laws/Exec.lean ====
section
/-! SUPPORT. What each kind of instruction can do, said once over the shared operations: the ENCODE call, the host's
writes, the answers that touch nothing but the model's own record. -/

namespace Sys2Proof.Machine

/-- ENCODE with all its arguments is one transaction on the request presented (R63, R145). -/
theorem execEncode_eq (a : BitVec 32) (f q : BitVec 8) (v : Bool) (text : List Byte) (s : State)
    (h : text.length ≤ Config.textLenMax) :
    execEncode a f q v text s =
      .next (transactionOn ⟨a, f, q, v, text⟩ (presentRequest ⟨a, f, q, v, text⟩ s)) := by
  rw [execEncode, if_pos h, startTransaction_of_ok (readRequest_presentRequest _ s h)]

/-- ENCODE answers a next state only for a text that can be presented, and then that one. -/
theorem execEncode_next {a : BitVec 32} {f q : BitVec 8} {v : Bool} {text : List Byte} {s t : State}
    (h : execEncode a f q v text s = .next t) :
    text.length ≤ Config.textLenMax ∧
      t = transactionOn ⟨a, f, q, v, text⟩ (presentRequest ⟨a, f, q, v, text⟩ s) := by
  by_cases hl : text.length ≤ Config.textLenMax
  · rw [execEncode_eq a f q v text s hl] at h; cases h; exact ⟨hl, rfl⟩
  · rw [execEncode, if_neg hl] at h; cases h

/-- The run of one step more is the run from the state that step answers. -/
theorem run_of_step {s t : State} (h : step s = .next t) (k : Nat) : core.run (k + 1) s = core.run k t := by
  have hc : core.step s = .next t := h
  simp only [Host.Core.run, hc]

@[simp] theorem presentRequest_rsp (q : Request) (s : State) : (presentRequest q s).rsp = s.rsp := rfl
@[simp] theorem presentRequest_work (q : Request) (s : State) : (presentRequest q s).work = s.work := rfl
@[simp] theorem presentRequest_result (q : Request) (s : State) : (presentRequest q s).result = s.result := rfl
@[simp] theorem presentRequest_pending (q : Request) (s : State) : (presentRequest q s).pending = s.pending := rfl

/-- VALIDATE's answer, by the numbers (R70 to R74). -/
theorem legalAddress_iff (a : BitVec 32) : legalAddress a = true ↔ 1 ≤ a.toNat ∧ a.toNat ≤ 0x1FFFFF := by
  simp only [legalAddress, Bool.and_eq_true, decide_eq_true_eq]; rfl

theorem legalFunctionCode_iff (f : BitVec 8) : legalFunctionCode f = true ↔ f.toNat ∈ [0, 1, 3] := by
  simp [legalFunctionCode, BitVec.toNat_eq, or_assoc]

theorem legalPolicy_iff (q : BitVec 8) : legalPolicy q = true ↔ q.toNat ≤ 2 := by
  simp only [legalPolicy, BitVec.toNat_eq, Bool.or_eq_true, decide_eq_true_eq, BitVec.toNat_ofNat]
  omega

theorem validate_ok_iff (a : BitVec 32) (f q : BitVec 8) :
    validate a f q = .ok ↔ legalAddress a = true ∧ legalFunctionCode f = true ∧ legalPolicy q = true := by
  unfold validate
  cases legalAddress a <;> cases legalFunctionCode f <;> cases legalPolicy q <;> simp

/-- The response of a legal request (R145). -/
theorem transactionOn_ok {q : Request} (s : State) (h : validate q.address q.functionCode q.batch2Policy = .ok) :
    transactionOn q s = finish (respond (disposedSlots q).1 (invertSlots q.invertPhase (disposedSlots q).2) s) := by
  rw [transactionOn, h]

/-- The response of an illegal request (R163). -/
theorem transactionOn_err {q : Request} (s : State) {k : ErrorKind}
    (h : validate q.address q.functionCode q.batch2Policy = .err k) : transactionOn q s = finish (raise k s) := by
  rw [transactionOn, h]

/-- Every word of an assembled slot array is a codeword when what was placed is. -/
theorem isCodeword_bchenc (v : Word) (h : lowBitsClear v = true) : isCodeword (bchenc v) = true := by
  simp [isCodeword, bchenc_and_top v h]

theorem isCodeword_idle : isCodeword Config.idle = true := by decide +kernel

/-- The complement of a codeword is a codeword (R50, R83). -/
theorem isCodeword_not (w : Word) (h : isCodeword w = true) : isCodeword (~~~w) = true := by
  simp only [isCodeword, decide_eq_true_eq] at *
  have hx : ~~~w &&& 0xFFFFF800#32 = (w &&& 0xFFFFF800#32) ^^^ 0xFFFFF800#32 := by
    apply BitVec.eq_of_getLsbD_eq
    intro i hi
    simp only [BitVec.getLsbD_and, BitVec.getLsbD_not, BitVec.getLsbD_xor, topMask_getLsbD, hi, decide_true, Bool.true_and,
      Bool.and_true]
    by_cases h1 : 11 ≤ i <;> simp [h1]
  rw [hx, bchenc_xor _ _ (lowBitsClear_and_top w) (by decide), h, bchenc_ones, show 0xFFFFFFFF#32 = BitVec.allOnes 32 from rfl,
    BitVec.xor_allOnes]

/-- A codeword has an even count of set bits (R46). -/
theorem isCodeword_even (w : Word) (h : isCodeword w = true) : popcount32 w % 2 = 0 := by
  simp only [isCodeword, decide_eq_true_eq] at h
  have := bchenc_even _ (lowBitsClear_and_top w)
  rw [h] at this
  simp only [oddPopcount, decide_eq_false_iff_not] at this
  omega

/-- Every slot of an assembled array of codewords is a codeword. -/
theorem isCodeword_assembleSlots (aslot : Nat) (acw : Word) (mcw : List Word) (ha : isCodeword acw = true)
    (hm : ∀ w ∈ mcw, isCodeword w = true) (j : Nat) (h : j < 32) :
    isCodeword (assembleSlots aslot acw mcw)[j] = true := by
  rw [assembleSlots_getElem]
  split_ifs with h1 h2
  · exact hm _ (List.getElem_mem _)
  · exact ha
  · exact isCodeword_idle

theorem isCodeword_addressCodeword (a : BitVec 32) (f : BitVec 8) : isCodeword (addressCodeword a f) = true :=
  isCodeword_bchenc _ (addressOperand_clear a f)

theorem isCodeword_messageCodeword (g : List Byte) : isCodeword (messageCodeword g) = true :=
  isCodeword_bchenc _ (groupOperand_clear g)

theorem isCodeword_messageCodewords (text : List Byte) : ∀ w ∈ messageCodewords text, isCodeword w = true := by
  intro w hw
  simp only [messageCodewords, List.mem_map] at hw
  obtain ⟨i, _, rfl⟩ := hw
  exact isCodeword_messageCodeword _

/-- Every slot a transaction disposes of is a codeword (R149). -/
theorem isCodeword_disposedSlots (q : Request) (j : Nat) (h : j < 32) : isCodeword (disposedSlots q).2[j] = true := by
  have key := isCodeword_assembleSlots (addressSlot q.address) (addressCodeword q.address q.functionCode)
    (messageCodewords (q.text.take (truncateLen q.text.length))) (isCodeword_addressCodeword _ _)
    (isCodeword_messageCodewords _)
  unfold disposedSlots
  rcases disposeSlots_cases (highestSlot (addressSlot q.address)
      (messageCodewords (q.text.take (truncateLen q.text.length))).length) q.batch2Policy
      (assembleSlots (addressSlot q.address) (addressCodeword q.address q.functionCode)
        (messageCodewords (q.text.take (truncateLen q.text.length)))) with ⟨e, _⟩ | ⟨e, _⟩ | ⟨e, _⟩ <;>
    simp only [e]
  · exact key j h
  · rw [copyFirstBatch_getElem]; exact key _ _
  · exact key j h

end Sys2Proof.Machine
end

