-- ==== Sys2Proof/Laws/PerInstr.lean ====
section
/-! SUPPORT. The family EncodedLength: how many bytes an instruction has at its place, the table's width in whole
bytes and then the operands the table names under `apart` (30_encoding.md R59, R64). One lemma per constructor. -/

namespace Sys2Proof.Laws

/-- The number of bytes of an instruction: the row's width rounded up to bytes, then the operands apart. -/
def EncodedLength.byteCount : Instr → Nat
  | .encode _ _ _ _ text => 8 + text.length
  | .validate _ _ _ => 6
  | .addrcw _ _ => 3
  | .msgcw _ => 6
  | .msgenc text => 1 + text.length
  | .place _ _ => 5
  | .assemble _ _ mcw => 5 + 4 * mcw.length
  | .dispose _ _ => 2
  | .bchchk _ | .evenpar _ | .bchenc _ | .batchinit | .serialize _ => 4
  | .cwAddr _ _ _ _ | .cwMsg _ _ _ _ _ _ _ | .cwIdle | .cwIdleInverted => 4
  | .cwAddrInverted _ _ _ _ | .cwMsgInverted _ _ _ _ _ _ _ => 4
  | .truncate _ | .charnib _ | .rev4 _ | .invert _ | .fcTimesync | .fcDown | .fcIllegal2 | .fcUp => 1
  | .fcIllegal4To255 _ | .polTruncate | .polCopybatch1 | .polLeaveidle | .polIllegal3To255 _ | .stOk => 1
  | .stInvalidAddress | .stInvalidFunctionCode | .stInvalidBatch2Policy | .batchcount1 | .batchcount2 => 1
  | .invertFalse | .invertTrue | .sym0 | .sym1 | .sym2 | .sym3 | .sym4 | .sym5 | .sym6 | .sym7 | .sym8 | .sym9 => 1
  | .symStar | .symU | .symSpace | .symMinus | .symLparen | .symRparen | .symDefault _ | .nib0 | .nib8 | .nib4 => 1
  | .nibC | .nib2 | .nibA | .nib6 | .nibE | .nib1 | .nib9 | .nib5 | .nibD | .nib3 | .nibB | .nib7 | .nibF => 1

/-- A well-formed instruction is encoded in the number of bytes its row and its apart operands need. -/
def EncodedLength.Statement (i : Instr) : Prop :=
  wellFormed i = true → (Sys2Proof.encode i).2.length = EncodedLength.byteCount i

end Sys2Proof.Laws

namespace Sys2Proof.Laws.EncodedLength

/-- The bytes of m codewords. -/
theorem words_length (ws : List Word) : (ws.flatMap fun w => beBytes 4 w.toNat).length = 4 * ws.length := by
  induction ws with
  | nil => rfl
  | cons w ws ih => rw [List.flatMap_cons, List.length_append, ih, beBytes_length, List.length_cons]; omega

theorem encode (address : BitVec 32) (functionCode : BitVec 8) (batch2Policy : BitVec 8) (invertPhase : Bool) (text : List Byte) : Statement (.encode address functionCode batch2Policy invertPhase text) := fun _ => by
  show (beBytes 7 _ ++ (_ :: text)).length = 8 + text.length
  rw [List.length_append, beBytes_length, List.length_cons]; omega

theorem validate (address : BitVec 32) (functionCode : BitVec 8) (batch2Policy : BitVec 8) : Statement (.validate address functionCode batch2Policy) := fun _ => rfl

theorem truncate (len : BitVec 8) : Statement (.truncate len) := fun _ => rfl

theorem bchchk (v : Word) : Statement (.bchchk v) := fun _ => rfl

theorem evenpar (u : Word) : Statement (.evenpar u) := fun _ => rfl

theorem bchenc (v : Word) : Statement (.bchenc v) := fun _ => rfl

theorem addrcw (address : BitVec 32) (functionCode : BitVec 8) : Statement (.addrcw address functionCode) := fun _ => rfl

theorem charnib (c : Byte) : Statement (.charnib c) := fun _ => rfl

theorem rev4 (x : BitVec 4) : Statement (.rev4 x) := fun _ => rfl

theorem msgcw (group : List Byte) : Statement (.msgcw group) := fun h => by
  have hg : 1 ≤ group.length ∧ group.length ≤ 5 := by simpa [wellFormed] using h
  show (group.take 5 ++ List.replicate (5 - group.length) 0#8 ++ [_]).length = 6
  simp only [List.length_append, List.length_take, List.length_replicate, List.length_singleton]; omega

theorem msgenc (text : List Byte) : Statement (.msgenc text) := fun _ => by
  show (_ :: text).length = 1 + text.length
  rw [List.length_cons, Nat.add_comm]

theorem batchinit : Statement .batchinit := fun _ => rfl

theorem place (k : BitVec 6) (v : Word) : Statement (.place k v) := fun _ => rfl

theorem assemble (aslot : BitVec 4) (acw : Word) (mcw : List Word) : Statement (.assemble aslot acw mcw) := fun _ => by
  show (beBytes 5 _ ++ mcw.flatMap fun w => beBytes 4 w.toNat).length = 5 + 4 * mcw.length
  rw [List.length_append, beBytes_length, words_length]

theorem dispose (highest : BitVec 5) (batch2Policy : BitVec 8) : Statement (.dispose highest batch2Policy) := fun _ => rfl

theorem invert (invertPhase : Bool) : Statement (.invert invertPhase) := fun _ => rfl

theorem serialize (v : Word) : Statement (.serialize v) := fun _ => rfl

theorem cwAddr (addrHi : BitVec 18) (fc : BitVec 2) (check : BitVec 10) (parity : BitVec 1) : Statement (.cwAddr addrHi fc check parity) := fun _ => rfl

theorem cwMsg (n0 n1 n2 n3 n4 : BitVec 4) (check : BitVec 10) (parity : BitVec 1) : Statement (.cwMsg n0 n1 n2 n3 n4 check parity) := fun _ => rfl

theorem cwIdle : Statement .cwIdle := fun _ => rfl

theorem cwIdleInverted : Statement .cwIdleInverted := fun _ => rfl

theorem cwAddrInverted (addrHi : BitVec 18) (fc : BitVec 2) (check : BitVec 10) (parity : BitVec 1) : Statement (.cwAddrInverted addrHi fc check parity) := fun _ => rfl

theorem cwMsgInverted (n0 n1 n2 n3 n4 : BitVec 4) (check : BitVec 10) (parity : BitVec 1) : Statement (.cwMsgInverted n0 n1 n2 n3 n4 check parity) := fun _ => rfl

theorem fcTimesync : Statement .fcTimesync := fun _ => rfl

theorem fcDown : Statement .fcDown := fun _ => rfl

theorem fcIllegal2 : Statement .fcIllegal2 := fun _ => rfl

theorem fcUp : Statement .fcUp := fun _ => rfl

theorem fcIllegal4To255 (value : BitVec 8) : Statement (.fcIllegal4To255 value) := fun _ => rfl

theorem polTruncate : Statement .polTruncate := fun _ => rfl

theorem polCopybatch1 : Statement .polCopybatch1 := fun _ => rfl

theorem polLeaveidle : Statement .polLeaveidle := fun _ => rfl

theorem polIllegal3To255 (value : BitVec 8) : Statement (.polIllegal3To255 value) := fun _ => rfl

theorem stOk : Statement .stOk := fun _ => rfl

theorem stInvalidAddress : Statement .stInvalidAddress := fun _ => rfl

theorem stInvalidFunctionCode : Statement .stInvalidFunctionCode := fun _ => rfl

theorem stInvalidBatch2Policy : Statement .stInvalidBatch2Policy := fun _ => rfl

theorem batchcount1 : Statement .batchcount1 := fun _ => rfl

theorem batchcount2 : Statement .batchcount2 := fun _ => rfl

theorem invertFalse : Statement .invertFalse := fun _ => rfl

theorem invertTrue : Statement .invertTrue := fun _ => rfl

theorem sym0 : Statement .sym0 := fun _ => rfl

theorem sym1 : Statement .sym1 := fun _ => rfl

theorem sym2 : Statement .sym2 := fun _ => rfl

theorem sym3 : Statement .sym3 := fun _ => rfl

theorem sym4 : Statement .sym4 := fun _ => rfl

theorem sym5 : Statement .sym5 := fun _ => rfl

theorem sym6 : Statement .sym6 := fun _ => rfl

theorem sym7 : Statement .sym7 := fun _ => rfl

theorem sym8 : Statement .sym8 := fun _ => rfl

theorem sym9 : Statement .sym9 := fun _ => rfl

theorem symStar : Statement .symStar := fun _ => rfl

theorem symU : Statement .symU := fun _ => rfl

theorem symSpace : Statement .symSpace := fun _ => rfl

theorem symMinus : Statement .symMinus := fun _ => rfl

theorem symLparen : Statement .symLparen := fun _ => rfl

theorem symRparen : Statement .symRparen := fun _ => rfl

theorem symDefault (c : Byte) : Statement (.symDefault c) := fun _ => rfl

theorem nib0 : Statement .nib0 := fun _ => rfl

theorem nib8 : Statement .nib8 := fun _ => rfl

theorem nib4 : Statement .nib4 := fun _ => rfl

theorem nibC : Statement .nibC := fun _ => rfl

theorem nib2 : Statement .nib2 := fun _ => rfl

theorem nibA : Statement .nibA := fun _ => rfl

theorem nib6 : Statement .nib6 := fun _ => rfl

theorem nibE : Statement .nibE := fun _ => rfl

theorem nib1 : Statement .nib1 := fun _ => rfl

theorem nib9 : Statement .nib9 := fun _ => rfl

theorem nib5 : Statement .nib5 := fun _ => rfl

theorem nibD : Statement .nibD := fun _ => rfl

theorem nib3 : Statement .nib3 := fun _ => rfl

theorem nibB : Statement .nibB := fun _ => rfl

theorem nib7 : Statement .nib7 := fun _ => rfl

theorem nibF : Statement .nibF := fun _ => rfl

end Sys2Proof.Laws.EncodedLength
end

