-- ==== Sys2Proof/Tests/Slice0.lean ====
section
/-! SUPPORT. The model's own tests. Expected values are those of spec/95_test_vectors.md and of the patterns of
spec/opcode_table.json, never the model's own answers. The witness theorems at the end show, for each obligation
that has hypotheses, values that meet them together. -/

namespace Sys2Proof.Tests

-- One theorem after another: each kernel evaluation waits for the declarations before it, and a thread for each would
-- wait beside it.
set_option Elab.async false

open Sys2Proof.Machine

/-! ## Helpers -/

/-- Character codes from their numbers. -/
def chars (ns : List Nat) : List Byte := ns.map (BitVec.ofNat 8)

def resultOf : Answer → Option Result
  | .next t => some t.result
  | _ => none

def workOf : Answer → Option Work
  | .next t => some t.work
  | _ => none

def rspOf : Answer → Option Rsp
  | .next t => some t.rsp
  | _ => none

def reqOf : Answer → Option Req
  | .next t => some t.req
  | _ => none

def refusalOf : Answer → Option Refusal
  | .refused why => some why
  | _ => none

/-- A state whose slot k holds the word k, so that a moved slot shows. -/
def numbered : State := State.reset.setWork { Work.fresh with slots := Vector.ofFn fun k : Fin 32 => BitVec.ofNat 32 k.val }

/-- REQ fully written with the text "51". -/
def written : State := State.reset.setReq
  { address := some 0x12D450#32, functionCode := some 3#8, batch2Policy := some 0#8, invertPhase := some false
    textLen := some 2, text := [(0, 0x35#8), (1, 0x31#8)] }

/-- A batch that is all idle, and one that is all complemented idle. -/
def allIdle : Batch := Vector.replicate 16 0x7A89C197#32
def allInverted : Batch := Vector.replicate 16 0x85763E68#32

/-- An Ok response that differs in every part from another. -/
def answered : State := State.reset.setRsp (.ok .one (allIdle.set 2 0#32) allIdle)

/-- The state with one action at the head of the host's script. -/
def acting (a : HostAction) (s : State) : State := s.setPending (a :: s.pending)

/-- 45 or fewer is at most TEXT_LEN_MAX, whatever that is. -/
theorem le_textLenMax (n : Nat) (h : n ≤ 45) : n ≤ Config.textLenMax :=
  Nat.le_trans h (Nat.le_add_left 45 Config.textLenMargin)

/-! ## WellFormed: an ill-formed term for each check -/

theorem test_wellFormed_encode_text : wellFormed (.encode 1 0 0 false (List.replicate 256 0x30#8)) = false := by decide +kernel
theorem test_wellFormed_bchchk_low_bits : wellFormed (.bchchk 0x00000400#32) = false := by decide
theorem test_wellFormed_bchenc_low_bits : wellFormed (.bchenc 0x00000001#32) = false := by decide
theorem test_wellFormed_evenpar_bit0 : wellFormed (.evenpar 0x80000001#32) = false := by decide
theorem test_wellFormed_addrcw_address : wellFormed (.addrcw 0x200000#32 0#8) = false := by decide
theorem test_wellFormed_addrcw_function : wellFormed (.addrcw 1#32 4#8) = false := by decide
theorem test_wellFormed_msgcw_empty : wellFormed (.msgcw []) = false := by decide
theorem test_wellFormed_msgcw_six : wellFormed (.msgcw (chars [1, 2, 3, 4, 5, 6])) = false := by decide
theorem test_wellFormed_msgenc_64 : wellFormed (.msgenc (List.replicate 64 0x30#8)) = false := by decide
theorem test_wellFormed_assemble_16 : wellFormed (.assemble 0 0 (List.replicate 16 0)) = false := by decide
theorem test_wellFormed_cwAddr_idle : wellFormed (.cwAddr 0x3D44E#18 0#2 0x0CB#10 1#1) = false := by decide
theorem test_wellFormed_cwAddrInverted_idle : wellFormed (.cwAddrInverted 0x02BB1#18 3#2 0x334#10 0#1) = false := by decide
theorem test_wellFormed_fcIllegal_3 : wellFormed (.fcIllegal4To255 3#8) = false := by decide
theorem test_wellFormed_polIllegal_2 : wellFormed (.polIllegal3To255 2#8) = false := by decide
theorem test_wellFormed_symDefault_listed : wellFormed (.symDefault 0x55#8) = false := by decide

/-! ## Decoding: for every constructor a word written out from the table's pattern -/

-- a = 0x0012D453, f = 1, q = 1, i = 1, then textLen 6 and "a-(9)U" (program P4's request, inverted)
theorem test_decode_encode :
    decode .encode [0b00000000#8, 0b00000000#8, 0b00100101#8, 0b10101000#8, 0b10100110#8, 0b00000010#8, 0b00000011#8,
      0x06#8, 0x61#8, 0x2D#8, 0x28#8, 0x39#8, 0x29#8, 0x55#8] =
      .ok (.encode 0x0012D453#32 1#8 1#8 true (chars [0x61, 0x2D, 0x28, 0x39, 0x29, 0x55]), []) := by decide +kernel

theorem test_decode_validate :
    decode .validate [0x80#8, 0x00#8, 0x00#8, 0x01#8, 0x05#8, 0xC8#8] = .ok (.validate 0x80000001#32 5#8 200#8, []) := by
  decide +kernel

theorem test_decode_truncate : decode .truncate [0b00101101#8] = .ok (.truncate 45#8, []) := by decide +kernel

theorem test_decode_bch_operands :
    decode .bchchk [0xC2#8, 0x61#8, 0x50#8, 0x00#8] = .ok (.bchchk 0xC2615000#32, []) ∧
    decode .bchenc [0x7A#8, 0x89#8, 0xC0#8, 0x00#8] = .ok (.bchenc 0x7A89C000#32, []) ∧
    decode .evenpar [0x00#8, 0x00#8, 0x0E#8, 0xD2#8] = .ok (.evenpar 0x00000ED2#32, []) ∧
    decode .bchchk [0x00#8, 0x00#8, 0x04#8, 0x00#8] = .error .fixedBits ∧
    decode .evenpar [0x00#8, 0x00#8, 0x00#8, 0x01#8] = .error .fixedBits := by decide +kernel

-- a = 10 0101 1010 1000 1010 (0x25A8A), s = 010, f = 01: 23 bits right-aligned in three bytes
theorem test_decode_addrcw :
    decode .addrcw [0b01001011#8, 0b01010001#8, 0b01001001#8] = .ok (.addrcw 0x12D452#32 1#8, []) ∧
    decode .addrcw [0b10000000#8, 0b00000000#8, 0b00000000#8] = .error .paddingBits := by decide +kernel

theorem test_decode_small_operands :
    decode .charnib [0x75#8] = .ok (.charnib 0x75#8, []) ∧
    decode .rev4 [0b00001100#8] = .ok (.rev4 0b1100#4, []) ∧
    decode .rev4 [0b00010000#8] = .error .paddingBits ∧
    decode .invert [0b00000001#8] = .ok (.invert true, []) ∧
    decode .serialize [0x4B#8, 0x51#8, 0x5A#8, 0x86#8] = .ok (.serialize 0x4B515A86#32, []) := by decide +kernel

-- three characters, two absent; then two groups that are no instruction
theorem test_decode_msgcw :
    decode .msgcw [0x31#8, 0x32#8, 0x33#8, 0x00#8, 0x00#8, 0x02#8] = .ok (.msgcw (chars [0x31, 0x32, 0x33]), []) ∧
    decode .msgcw [0x31#8, 0x32#8, 0x33#8, 0x00#8, 0x34#8, 0x02#8] = .error .absentCharacter ∧
    decode .msgcw [0x00#8, 0x00#8, 0x00#8, 0x00#8, 0x00#8, 0x05#8] = .error .groupLength := by decide +kernel

theorem test_decode_msgenc :
    decode .msgenc [0b00000010#8, 0x31#8, 0x32#8, 0xFF#8] = .ok (.msgenc (chars [0x31, 0x32]), [0xFF#8]) ∧
    decode .msgenc [0b00000010#8, 0x31#8] = .error .truncated := by decide +kernel

-- the constant the row of BATCHINIT carries; k = 010000 and the codeword
theorem test_decode_batchinit_and_place :
    decode .batchinit [0b01111010#8, 0b10001001#8, 0b11000001#8, 0b10010111#8] = .ok (.batchinit, []) ∧
    decode .place [0b00010000#8, 0xD3#8, 0x70#8, 0xCF#8, 0xDE#8] = .ok (.place 16#6 0xD370CFDE#32, []) := by
  decide +kernel

-- s = 1110, m = 0010, the address codeword, two message codewords; h = 10000, q = 00000001
theorem test_decode_assemble_and_dispose :
    decode .assemble [0b11100010#8, 0x00#8, 0x00#8, 0x0E#8, 0xD3#8, 0x84#8, 0x26#8, 0x13#8, 0xB7#8, 0xD3#8, 0x70#8, 0xCF#8,
      0xDE#8] = .ok (.assemble 14#4 0x00000ED3#32 [0x842613B7#32, 0xD370CFDE#32], []) ∧
    decode .dispose [0b00010000#8, 0b00000001#8] = .ok (.dispose 16#5 1#8, []) := by decide +kernel

-- 0 100101101010001010 01 0011111000 0: 4B5149F0 of section 2.3
theorem test_decode_codewords :
    decode .cw [0b01001011#8, 0b01010001#8, 0b01001001#8, 0b11110000#8] =
      .ok (.cwAddr 0b100101101010001010#18 0b01#2 0b0011111000#10 0#1, []) ∧
    decode .cw [0b11000010#8, 0b01100001#8, 0b01010111#8, 0b00101100#8] =
      .ok (.cwMsg 0b1000#4 0b0100#4 0b1100#4 0b0010#4 0b1010#4 0b1110010110#10 0#1, []) ∧
    decode .cw [0b01111010#8, 0b10001001#8, 0b11000001#8, 0b10010111#8] = .ok (.cwIdle, []) := by decide +kernel

-- the complements of the three words above, field by field
theorem test_decode_inverted_codewords :
    decode .cwInverted [0b10110100#8, 0b10101110#8, 0b10110110#8, 0b00001111#8] =
      .ok (.cwAddrInverted 0b011010010101110101#18 0b10#2 0b1100000111#10 1#1, []) ∧
    decode .cwInverted [0b00111101#8, 0b10011110#8, 0b10101000#8, 0b11010011#8] =
      .ok (.cwMsgInverted 0b0111#4 0b1011#4 0b0011#4 0b1101#4 0b0101#4 0b0001101001#10 1#1, []) ∧
    decode .cwInverted [0b10000101#8, 0b01110110#8, 0b00111110#8, 0b01101000#8] = .ok (.cwIdleInverted, []) := by
  decide +kernel

theorem test_decode_input_enumerations :
    [decode .fc8 [0b00000000#8], decode .fc8 [0b00000001#8], decode .fc8 [0b00000010#8], decode .fc8 [0b00000011#8],
      decode .fc8 [0b00000100#8], decode .pol8 [0b00000000#8], decode .pol8 [0b00000001#8], decode .pol8 [0b00000010#8],
      decode .pol8 [0b00000011#8], decode .b1 [0b00000000#8], decode .b1 [0b00000001#8]] =
    [.ok (.fcTimesync, []), .ok (.fcDown, []), .ok (.fcIllegal2, []), .ok (.fcUp, []), .ok (.fcIllegal4To255 4#8, []),
      .ok (.polTruncate, []), .ok (.polCopybatch1, []), .ok (.polLeaveidle, []), .ok (.polIllegal3To255 3#8, []),
      .ok (.invertFalse, []), .ok (.invertTrue, [])] := by decide +kernel

theorem test_decode_output_enumerations :
    [decode .st2 [0b00000000#8], decode .st2 [0b00000001#8], decode .st2 [0b00000010#8], decode .st2 [0b00000011#8],
      decode .bc2 [0b00000001#8], decode .bc2 [0b00000010#8], decode .bc2 [0b00000000#8]] =
    [.ok (.stOk, []), .ok (.stInvalidAddress, []), .ok (.stInvalidFunctionCode, []), .ok (.stInvalidBatch2Policy, []),
      .ok (.batchcount1, []), .ok (.batchcount2, []), .error .noRow] := by decide +kernel

theorem test_decode_symbols :
    [0b00110000#8, 0b00110001#8, 0b00110010#8, 0b00110011#8, 0b00110100#8, 0b00110101#8, 0b00110110#8, 0b00110111#8,
      0b00111000#8, 0b00111001#8, 0b00101010#8, 0b01010101#8, 0b00100000#8, 0b00101101#8, 0b00101000#8, 0b00101001#8,
      0b01110101#8].map (fun b => decode .char8 [b]) =
    [.ok (.sym0, []), .ok (.sym1, []), .ok (.sym2, []), .ok (.sym3, []), .ok (.sym4, []), .ok (.sym5, []), .ok (.sym6, []),
      .ok (.sym7, []), .ok (.sym8, []), .ok (.sym9, []), .ok (.symStar, []), .ok (.symU, []), .ok (.symSpace, []),
      .ok (.symMinus, []), .ok (.symLparen, []), .ok (.symRparen, []), .ok (.symDefault 0x75#8, [])] := by decide +kernel

theorem test_decode_nibbles :
    [0b0000#8, 0b1000#8, 0b0100#8, 0b1100#8, 0b0010#8, 0b1010#8, 0b0110#8, 0b1110#8, 0b0001#8, 0b1001#8, 0b0101#8, 0b1101#8,
      0b0011#8, 0b1011#8, 0b0111#8, 0b1111#8].map (fun b => decode .nib4 [b]) =
    [.ok (.nib0, []), .ok (.nib8, []), .ok (.nib4, []), .ok (.nibC, []), .ok (.nib2, []), .ok (.nibA, []), .ok (.nib6, []),
      .ok (.nibE, []), .ok (.nib1, []), .ok (.nib9, []), .ok (.nib5, []), .ok (.nibD, []), .ok (.nib3, []), .ok (.nibB, []),
      .ok (.nib7, []), .ok (.nibF, [])] := by decide +kernel

/-! ## The host's two questions about a bare word -/

theorem test_bare_word_request : decodeTableWord 56 0x25A8A00600 = some (.encode 0x12D450#32 3#8 0#8 false []) := by
  decide +kernel

theorem test_bare_word_idle : decodeTableWord 32 0x7A89C197 = some .batchinit ∧ decodeTableWord 32 0x85763E68 = some .cwIdleInverted := by
  decide +kernel

theorem test_bare_word_step : step (State.reset.withFetchWord 32 0x7A89C000) = exec (.bchchk 0x7A89C000#32) State.reset := by
  rfl

/-! ## BCHEncoder (95_test_vectors.md section 2.1) -/

theorem test_bchchk_operand_12345 : bchchk 0xC2615000#32 = 0xC261572C#32 ∧ bchWork 0xC2615000#32 = 0xE5800000#32 ∧
    bchChk 0xC2615000#32 = 0x72C#11 := by decide +kernel

theorem test_bchchk_leaves_its_working_copy :
    workOf (exec (.bchchk 0x00002000#32) State.reset) = some { Work.fresh with w := 0xDD800000#32, chk := 0x6EC#11 } ∧
    resultOf (exec (.bchchk 0x00002000#32) State.reset) = some (.word 0x000026EC#32) := by decide +kernel

theorem test_evenpar_odd_and_even :
    resultOf (exec (.evenpar 0x00000ED2#32) State.reset) = some (.word 0x00000ED3#32) ∧
    resultOf (exec (.evenpar 0x000026EC#32) State.reset) = some (.word 0x000026EC#32) ∧
    resultOf (exec (.evenpar 0xFFFFFFFE#32) State.reset) = some (.word 0xFFFFFFFF#32) := by decide +kernel

theorem test_bchenc_operands :
    [0x00000000#32, 0x7A89C000#32, 0x7FFFF800#32, 0xAAAAA800#32, 0x55555000#32, 0xFFFFF800#32].map
      (fun v => resultOf (exec (.bchenc v) State.reset)) =
    [some (.word 0x00000000#32), some (.word 0x7A89C197#32), some (.word 0x7FFFF896#32), some (.word 0xAAAAAF1B#32),
      some (.word 0x555550E4#32), some (.word 0xFFFFFFFF#32)] := by decide +kernel

theorem test_bchenc_refuses_low_bits :
    [0x00000001#32, 0x000007FF#32, 0x7A89C197#32].map (fun v => refusalOf (exec (.bchenc v) State.reset)) =
    [some .bchOperandLowBits, some .bchOperandLowBits, some .bchOperandLowBits] := by decide +kernel

/-! ## ParameterValidator (section 2.2) -/

theorem test_validate_address_boundaries :
    [0x0#32, 0x1#32, 0x1FFFFF#32, 0x200000#32, 0x80000001#32, 0xFFFFFFFF#32].map
      (fun a => resultOf (exec (.validate a 3#8 2#8) State.reset)) =
    [some (.verdict (.err .invalidAddress)), some (.verdict .ok), some (.verdict .ok),
      some (.verdict (.err .invalidAddress)), some (.verdict (.err .invalidAddress)),
      some (.verdict (.err .invalidAddress))] := by decide +kernel

theorem test_validate_order_and_whole_values :
    [(0x1#32, 5#8, 0#8), (0x1#32, 7#8, 0#8), (0x0#32, 5#8, 7#8), (0x1#32, 2#8, 9#8), (0x1#32, 0#8, 3#8), (0x5#32, 3#8, 200#8)].map
      (fun x => resultOf (exec (.validate x.1 x.2.1 x.2.2) State.reset)) =
    [some (.verdict (.err .invalidFunctionCode)), some (.verdict (.err .invalidFunctionCode)),
      some (.verdict (.err .invalidAddress)), some (.verdict (.err .invalidFunctionCode)),
      some (.verdict (.err .invalidBatch2Policy)), some (.verdict (.err .invalidBatch2Policy))] := by decide +kernel

/-! ## AddressCodewordBuilder (section 2.3) -/

theorem test_addrcw_codeword_and_slot :
    workOf (exec (.addrcw 0x12D453#32 1#8) State.reset) =
      some { Work.fresh with frame := 3#3, aslot := 6, acw := 0x4B5149F0#32 } ∧
    workOf (exec (.addrcw 0x1FFFFF#32 3#8) State.reset) =
      some { Work.fresh with frame := 7#3, aslot := 14, acw := 0x7FFFF896#32 } := by decide +kernel

theorem test_addrcw_coincidences :
    addressCodeword 0x1#32 0#8 = 0#32 ∧ addressCodeword 0x1EA277#32 0#8 = 0x7A89C197#32 ∧
    addressCodeword 0x1EA270#32 1#8 = 0x7A89CF44#32 := by decide +kernel

/-! ## MessageEncoder (sections 2.4, 2.5) -/

theorem test_charnib_boundaries :
    ([0x2F, 0x30, 0x39, 0x3A, 0x2A, 0x2B, 0x54, 0x55, 0x56, 0x75, 0x20, 0x2D, 0x28, 0x29, 0x00, 0xB0, 0xFF].map
      fun n => charnib (BitVec.ofNat 8 n)) =
    [10#4, 0#4, 9#4, 10#4, 10#4, 10#4, 10#4, 11#4, 10#4, 10#4, 12#4, 13#4, 14#4, 15#4, 10#4, 10#4, 10#4] := by decide +kernel

theorem test_rev4_table :
    [0#4, 1#4, 2#4, 3#4, 4#4, 5#4, 6#4, 7#4, 8#4, 9#4, 10#4, 11#4, 12#4, 13#4, 14#4, 15#4].map rev4 =
    [0#4, 8#4, 4#4, 12#4, 2#4, 10#4, 6#4, 14#4, 1#4, 9#4, 5#4, 13#4, 3#4, 11#4, 7#4, 15#4] := by decide +kernel

theorem test_msgcw_groups :
    [[0x31, 0x32, 0x33, 0x34, 0x35], [0x31], [0x31, 0x30, 0x30, 0x30, 0x30], [0x2A, 0x55, 0x20, 0x2D, 0x28],
      [0x61, 0x62, 0x63]].map (fun g => resultOf (exec (.msgcw (chars g)) State.reset)) =
    [some (.word 0xC261572C#32), some (.word 0xC00004DC#32), some (.word 0xC00004DC#32), some (.word 0xAE9DBEA0#32),
      some (.word 0xAAA804C5#32)] := by decide +kernel

theorem test_msgenc_groups :
    workOf (exec (.msgenc (chars [0x35, 0x31, 0x32, 0x33, 0x34, 0x20, 0x20, 0x38, 0x30, 0x20, 0x20, 0x31, 0x30, 0x32, 0x37]))
      State.reset) =
      some { Work.fresh with m := 3, mcw := [0xD4261786#32, 0x99881C37#32, 0x9C0276C3#32] } ∧
    workOf (exec (.msgenc []) State.reset) = some Work.fresh := by decide +kernel

theorem test_msgenc_refuses_41 : refusalOf (exec (.msgenc (List.replicate 41 0x30#8)) State.reset) = some .textNotTruncated := by
  decide +kernel

/-! ## BatchAssembler (sections 2.6, 44_batch_assembler.md) -/

theorem test_batchinit : workOf (exec .batchinit numbered) = some { Work.fresh with slots := Vector.replicate 32 0x7A89C197#32 } := by
  decide +kernel

theorem test_place_guard :
    workOf (exec (.place 31#6 0xD370CFDE#32) numbered) =
      some { numbered.work with slots := numbered.work.slots.set 31 0xD370CFDE#32 } ∧
    workOf (exec (.place 32#6 0xD370CFDE#32) numbered) = some numbered.work := by decide +kernel

theorem test_assemble_crosses_into_batch_two :
    workOf (exec (.assemble 14#4 0x00000ED3#32 [0x842613B7#32, 0xD370CFDE#32]) numbered) =
      some { Work.fresh with
        slots := (((Vector.replicate 32 0x7A89C197#32).set 14 0x00000ED3#32).set 15 0x842613B7#32).set 16 0xD370CFDE#32
        cursor := 17
        highest := 16 } := by decide +kernel

theorem test_dispose_boundary :
    workOf (exec (.dispose 15#5 1#8) numbered) =
      some { Work.fresh with
        slots := Vector.ofFn fun k : Fin 32 => BitVec.ofNat 32 (k.val % 16)
        count := .two } ∧
    workOf (exec (.dispose 16#5 1#8) numbered) = some { numbered.work with count := .two } := by decide +kernel

theorem test_dispose_truncate_and_unvalidated :
    workOf (exec (.dispose 15#5 0#8) numbered) = some { numbered.work with count := .one } ∧
    refusalOf (exec (.dispose 15#5 3#8) numbered) = some .policyNotValidated := by decide +kernel

/-! ## PostProcessor (section 2.8, 45_postprocessor.md) -/

theorem test_invert :
    workOf (exec (.invert true) numbered) =
      some { Work.fresh with slots := Vector.ofFn fun k : Fin 32 => BitVec.ofNat 32 (0xFFFFFFFF - k.val) } ∧
    workOf (exec (.invert false) numbered) = some numbered.work := by decide +kernel

theorem test_serialize :
    resultOf (exec (.serialize 0x7A89C197#32) State.reset) = some (.bytes [0x7A#8, 0x89#8, 0xC1#8, 0x97#8]) := by decide +kernel

/-! ## ENCODE (sections 2.6, 2.7 and the programs) -/

theorem test_truncate : workOf (exec (.truncate 45#8) State.reset) = some { Work.fresh with n := 40 } ∧
    workOf (exec (.truncate 40#8) State.reset) = some { Work.fresh with n := 40 } := by decide +kernel

theorem test_encode_scenario_A :
    rspOf (exec (.encode 1#32 0#8 0#8 false []) State.reset) = some (.ok .one (allIdle.set 2 0#32) allIdle) := by decide +kernel

theorem test_encode_scenario_B :
    rspOf (exec (.encode 1#32 0#8 0#8 true []) State.reset) = some (.ok .one (allInverted.set 2 0xFFFFFFFF#32) allInverted) := by
  decide +kernel

theorem test_encode_P3_crosses_inverted :
    rspOf (exec (.encode 7#32 1#8 2#8 true (chars [0x30, 0x31, 0x32, 0x33, 0x34, 0x35, 0x36, 0x37, 0x38, 0x39])) numbered) =
      some (.ok .two ((allInverted.set 14 0xFFFFF12C#32).set 15 0x7BD9EC48#32) (allInverted.set 0 0x2C8F3021#32)) := by
  decide +kernel

theorem test_encode_P4_copies :
    rspOf (exec (.encode 0x12D453#32 1#8 1#8 false (chars [0x61, 0x2D, 0x28, 0x39, 0x29, 0x55])) State.reset) =
      some (.ok .two (((allIdle.set 6 0x4B5149F0#32).set 7 0xADBCFC59#32).set 8 0xE80006C5#32)
        (((allIdle.set 6 0x4B5149F0#32).set 7 0xADBCFC59#32).set 8 0xE80006C5#32)) := by decide +kernel

theorem test_encode_errors_in_order :
    [(0x0#32, 5#8, 7#8), (0x200000#32, 3#8, 1#8), (0x1#32, 5#8, 0#8), (0x1#32, 2#8, 9#8), (0x1#32, 3#8, 255#8)].map
      (fun x => rspOf (exec (.encode x.1 x.2.1 x.2.2 false []) answered)) =
    [some (.err .invalidAddress), some (.err .invalidAddress), some (.err .invalidFunctionCode),
      some (.err .invalidFunctionCode), some (.err .invalidBatch2Policy)] := by decide +kernel

theorem test_encode_leaves_the_request : reqOf (exec (.encode 0x12D450#32 3#8 0#8 false (chars [0x35, 0x31])) answered) = some written.req := by
  decide +kernel

/-! ## The value rows -/

theorem test_input_rows_write_the_request :
    reqOf (exec .fcUp written) = some { written.req with functionCode := some 3#8 } ∧
    reqOf (exec (.fcIllegal4To255 5#8) written) = some { written.req with functionCode := some 5#8 } ∧
    reqOf (exec .polLeaveidle written) = some { written.req with batch2Policy := some 2#8 } ∧
    reqOf (exec .invertTrue written) = some { written.req with invertPhase := some true } := by decide +kernel

theorem test_output_rows_are_read :
    resultOf (exec .stInvalidBatch2Policy State.reset) = some (.status (.err .invalidBatch2Policy)) ∧
    resultOf (exec .batchcount2 State.reset) = some (.batchCount .two) := by decide +kernel

theorem test_codeword_rows_are_read :
    resultOf (exec (.cwAddr 0x25A8A#18 1#2 0x0F8#10 0#1) State.reset) =
      some (.codeword ⟨false, 0x4B5149F0#32, .address 0x25A8A#18 1#2, 0x0F8#10, 0#1⟩) ∧
    resultOf (exec .cwIdleInverted State.reset) = some (.codeword ⟨true, 0x7A89C197#32, .idle, 0x0CB#10, 1#1⟩) := by
  decide +kernel

theorem test_symbol_and_nibble_rows :
    resultOf (exec .symU State.reset) = some (.character 11#4 0xD#4 0xE80006C5#32) ∧
    resultOf (exec .nib8 State.reset) = some (.nibbleRead 1#4 0x31#8) := by decide +kernel

/-! ## The port -/

theorem test_start_runs_the_written_request :
    rspOf (step (acting (.port .start) written)) = some (.ok .one ((allIdle.set 0 0x4B515A86#32).set 1 0xD40005D1#32) allIdle) ∧
    refusalOf (step (acting (.port .start) State.reset)) = some .requestUnwritten := by decide +kernel

theorem test_bytes_of_scenario_A :
    resultOf (step (acting (.port (.readBytes .first 0 16)) answered)) =
      some (.bytes (chars [0x7A, 0x89, 0xC1, 0x97, 0x7A, 0x89, 0xC1, 0x97, 0, 0, 0, 0, 0x7A, 0x89, 0xC1, 0x97])) ∧
    refusalOf (step (acting (.port (.readBytes .first 60 5)) answered)) = some .outsideView := by decide +kernel

theorem test_reset_memory_is_canonical : Memory.wf State.reset.req.text = true := by decide

/-! ## Witnesses: values that meet the hypotheses of each obligation, at the boundaries of its clauses -/

/-- Every word of `answered` is a codeword. -/
theorem answered_codewords (k : Fin 16) :
    isCodeword (allIdle.set 2 0#32)[k] = true ∧ isCodeword allIdle[k] = true := by
  revert k; decide +kernel

/-- The invariant holds of a state with a response, REQ written. -/
theorem answered_inv : Inv answered where
  textCanonical := rfl
  textInRange := fun _ h => absurd h (List.not_mem_nil)
  wordsAreCodewords := by
    intro c b1 b2 h i hi
    cases h
    exact answered_codewords ⟨i, hi⟩
  secondBatchUnused := by
    intro b1 b2 h
    cases h
    exact .inl fun i hi => by simp [allIdle, Config.idle]

theorem witness_StepRunsTheIssuedInstruction :
    (acting (.issue .evenpar [0#8, 0#8, 0x0E#8, 0xD2#8]) answered).pending = .issue .evenpar [0#8, 0#8, 0x0E#8, 0xD2#8] :: [] ∧
    decode .evenpar [0#8, 0#8, 0x0E#8, 0xD2#8] = .ok (.evenpar 0x00000ED2#32, []) ∧
    (acting (.issue .bc2 [3#8]) answered).pending = .issue .bc2 [3#8] :: [] ∧ decode .bc2 [3#8] = .error .noRow ∧
    answered.pending = [] := by decide +kernel

theorem witness_DecodeOfEncodeIsTheInstruction :
    wellFormed (.encode 0xFFFFFFFF#32 255#8 255#8 true (List.replicate 255 0xFF#8)) = true ∧
    wellFormed (.assemble 15#4 0xFFFFFFFF#32 (List.replicate 15 0xFFFFFFFF#32)) = true ∧
    wellFormed (.msgcw (chars [0, 0, 0, 0, 0])) = true ∧ wellFormed (.addrcw 0x1FFFFF#32 3#8) = true := by decide +kernel

theorem witness_DecodedBytesAreTheEncoding :
    decode .msgcw [0x31#8, 0#8, 0#8, 0#8, 0#8, 4#8, 0xAA#8] = .ok (.msgcw (chars [0x31]), [0xAA#8]) := by decide +kernel

theorem witness_OnlyEncodeChangesTheResponse :
    exec .fcUp answered = .next (answered.setReq { answered.req with functionCode := some 3#8 }) ∧
    startsTransaction .fcUp = false ∧ writesRequest .fcUp = true ∧
    exec (.serialize 0#32) answered = .next (answered.setResult (.bytes [0#8, 0#8, 0#8, 0#8])) ∧
    startsTransaction (.serialize 0#32) = false ∧ writesRequest (.serialize 0#32) = false :=
  ⟨rfl, rfl, rfl, rfl, rfl, rfl⟩

theorem witness_UnitsWriteOnlyTheirOwnValues :
    exec (.truncate 45#8) answered = .next (answered.setWork { answered.work with n := 40 }) ∧
    startsTransaction (.truncate 45#8) = false ∧ WorkField.m ∉ unitWrites (.truncate 45#8) :=
  ⟨rfl, rfl, by decide⟩

theorem witness_InstructionsCompleteExactlyInContract :
    inContract (.bchenc 0xFFFFF800#32) = true ∧ inContract (.bchenc 0x00000400#32) = false ∧
    inContract (.msgenc (List.replicate 40 0#8)) = true ∧ inContract (.msgenc (List.replicate 41 0#8)) = false ∧
    inContract (.dispose 15#5 2#8) = true ∧ inContract (.dispose 15#5 3#8) = false ∧
    inContract (.dispose 16#5 255#8) = true ∧ inContract (.encode 0#32 0#8 0#8 false []) = true := by decide +kernel

theorem witness_OperandsOutsideContractAreRefused :
    (0x00000400#32 : Word) &&& 0x7FF#32 ≠ 0#32 ∧ (0x80000001#32 : Word).getLsbD 0 = true ∧
    (0#32 : Word).toNat = 0 ∧ 0x1FFFFF < (0x200000#32 : Word).toNat ∧ (2#8 : Byte).toNat ∉ [0, 1, 3] ∧
    5 < (chars [0, 0, 0, 0, 0, 0]).length ∧ 40 < (List.replicate 41 0#8 : List Byte).length ∧
    (15#5 : BitVec 5).toNat < 16 ∧ 2 < (3#8 : Byte).toNat := by decide +kernel

theorem witness_EveryStepKeepsTheInvariant :
    Inv (acting (.port .readValid) answered) ∧
    step (acting (.port .readValid) answered) = .next (answered.setResult (.valid true)) :=
  ⟨⟨answered_inv.1, answered_inv.2, answered_inv.3, answered_inv.4⟩, rfl⟩

theorem witness_ScriptsInContractNeverStop :
    ∀ a ∈ (acting (.issue .rev4 [0x0C#8]) answered).pending,
      ∃ sel bytes i tail, a = .issue sel bytes ∧ decode sel bytes = .ok (i, tail) ∧ inContract i = true := by
  intro a ha
  obtain rfl : a = .issue .rev4 [0x0C#8] := List.mem_singleton.mp ha
  exact ⟨_, _, _, _, rfl, (by decide +kernel : decode .rev4 [0x0C#8] = .ok (.rev4 0xC#4, [])), rfl⟩

theorem witness_ResetLeavesNoRequestAndNoResponse : (acting (.port .reset) answered).pending = .port .reset :: [] := rfl

theorem witness_HostWritesReachTheirField :
    (acting (.port (.writeAddress 0xFFFFFFFF#32)) answered).pending = .port (.writeAddress 0xFFFFFFFF#32) :: [] ∧
    (acting (.port (.writeFunctionCode 255#8)) answered).pending = .port (.writeFunctionCode 255#8) :: [] ∧
    (acting (.port (.writeBatch2Policy 255#8)) answered).pending = .port (.writeBatch2Policy 255#8) :: [] ∧
    (acting (.port (.writeInvertPhase true)) answered).pending = .port (.writeInvertPhase true) :: [] ∧
    (acting (.port (.writeTextLen 45)) answered).pending = .port (.writeTextLen 45) :: [] ∧
    (acting (.port (.writeChar 44 0#8)) answered).pending = .port (.writeChar 44 0#8) :: [] ∧ 44 < Config.textLenMax ∧
    (acting (.port (.writeChar Config.textLenMax 0#8)) answered).pending = .port (.writeChar Config.textLenMax 0#8) :: [] ∧
    Config.textLenMax ≤ Config.textLenMax :=
  ⟨rfl, rfl, rfl, rfl, rfl, rfl, le_textLenMax 45 (by omega), rfl, Nat.le_refl _⟩

theorem witness_StartNeedsACompleteRequest :
    (acting (.port .start) written).pending = .port .start :: [] ∧
    (acting (.port .start) answered).pending = .port .start :: [] := ⟨rfl, rfl⟩

theorem witness_StartRunsTheWrittenRequest :
    written.req.address = some 0x12D450#32 ∧ written.req.functionCode = some 3#8 ∧ written.req.batch2Policy = some 0#8 ∧
    written.req.invertPhase = some false ∧ written.req.textLen = some (chars [0x35, 0x31]).length ∧
    (chars [0x35, 0x31]).length ≤ Config.textLenMax ∧
    ∀ i < (chars [0x35, 0x31]).length, Memory.read written.req.text i = (chars [0x35, 0x31])[i]? :=
  ⟨rfl, rfl, rfl, rfl, rfl, le_textLenMax _ (by decide), by decide⟩

theorem witness_ResponseIsReadUnderItsTag :
    answered.rsp = .ok .one (allIdle.set 2 0#32) allIdle ∧ 15 < 16 ∧ 16 ≤ 16 ∧
    (raise .invalidAddress answered).rsp = .err .invalidAddress ∧ written.rsp = .idle ∧ written ≠ State.reset :=
  ⟨rfl, by omega, by omega, rfl, rfl, by decide⟩

theorem witness_ByteViewIsBigEndian :
    answered.rsp = .ok .one (allIdle.set 2 0#32) allIdle ∧ 15 < 16 ∧ 3 < 4 ∧ 60 + 4 ≤ 64 ∧ 64 + 0 ≤ 64 ∧
    64 < 60 + 5 := ⟨rfl, by omega, by omega, by omega, by omega, by omega⟩

theorem witness_ReadsChangeNothingOfTheBlock :
    runPort (.readBytes .second 63 1) answered = .next (answered.setResult (.bytes [0x97#8])) ∧
    runPort (.readWord .first 15) answered = .next (answered.setResult (.word 0x7A89C197#32)) ∧
    runPort .readStatus answered = .next (answered.setResult (.status .ok)) := ⟨rfl, rfl, rfl⟩

theorem witness_TextMemoryLaws :
    Memory.wf [(0, 0x35#8), (44, 0x31#8)] = true ∧ Memory.wf (Memory.write [(44, 0x31#8)] 0 0x35#8) = true ∧
    Memory.write [(44, 0x31#8)] 0 0x35#8 = [(0, 0x35#8), (44, 0x31#8)] := by decide

theorem witness_BchchkRunsTwentyOneSteps : (0xC2615000#32 : Word) &&& 0x7FF#32 = 0#32 := by decide

theorem witness_CheckFieldLandsInBitsTenToOne : (0xFFFFF800#32 : Word) &&& 0x7FF#32 = 0#32 := by decide

theorem witness_EvenparMakesTheCountEven :
    (0x00000ED2#32 : Word).getLsbD 0 = false ∧ popcount32 0x00000ED2#32 % 2 = 1 ∧
    (0x000026EC#32 : Word).getLsbD 0 = false ∧ popcount32 0x000026EC#32 % 2 = 0 := by decide +kernel

theorem witness_BchencMeetsItsContract : (0x7A89C000#32 : Word) &&& 0x7FF#32 = 0#32 := by decide

theorem witness_BchIsLinearOverExclusiveOr :
    (0x00002000#32 : Word) &&& 0x7FF#32 = 0#32 ∧ (0x00000800#32 : Word) &&& 0x7FF#32 = 0#32 := by decide

theorem witness_BchencIsGivenByTheBasisTable : (0xFFFFF800#32 : Word) &&& 0x7FF#32 = 0#32 := by decide

/-- Addresses and function codes at the boundaries of VALIDATE. -/
theorem witness_AddressCodewordRoundTrips :
    1 ≤ (0x1#32 : Word).toNat ∧ (0x1#32 : Word).toNat ≤ 0x1FFFFF ∧ (0#8 : Byte).toNat ∈ [0, 1, 3] ∧
    1 ≤ (0x1FFFFF#32 : Word).toNat ∧ (0x1FFFFF#32 : Word).toNat ≤ 0x1FFFFF ∧ (3#8 : Byte).toNat ∈ [0, 1, 3] := by
  decide +kernel

theorem witness_AddressCodewordCoincidences : 7 < 8 ∧ 1 ≤ 7 ∧ 0 < 8 := by decide

theorem witness_CharnibIsTheSymbolTable :
    0x30 ≤ (0x39#8 : Byte).toNat ∧ (0x39#8 : Byte).toNat ≤ 0x39 ∧
    (0x3A#8 : Byte).toNat ∉ [0x30, 0x31, 0x32, 0x33, 0x34, 0x35, 0x36, 0x37, 0x38, 0x39, 0x2A, 0x55, 0x20, 0x2D, 0x28, 0x29] := by
  decide

theorem witness_MessageCodewordHoldsItsGroup :
    1 ≤ (chars [0x31]).length ∧ (chars [0x31]).length ≤ 5 ∧ 0 < (chars [0x31]).length ∧ (chars [0x31]).length ≤ 4 ∧
    1 ≤ (chars [1, 2, 3, 4, 5]).length ∧ (chars [1, 2, 3, 4, 5]).length ≤ 5 := by decide

theorem witness_MessageIsCutIntoGroupsOfFive :
    (List.replicate 40 0x31#8 : List Byte).length ≤ 40 ∧
    7 < ((List.replicate 40 0x31#8 : List Byte).length + 4) / 5 := by decide

theorem witness_PlaceWritesOneSlotOrNone : 31 < (32#6 : BitVec 6).toNat ∧ ¬ 31 < (31#6 : BitVec 6).toNat := by decide

theorem witness_AssemblePlacesAddressThenMessage :
    (15#4 : BitVec 4).toNat < 32 ∧ 0 < [0xD370CFDE#32].length ∧ (15#4 : BitVec 4).toNat + 1 + 0 < 32 ∧
    14 < (15#4 : BitVec 4).toNat ∧ (15#4 : BitVec 4).toNat + [0xD370CFDE#32].length < 17 ∧
    -- the cut at slot 31: of 17 codewords after slot 15 the last (index 16) falls on slot 32
    15 < (List.replicate 17 0xD370CFDE#32).length ∧ (15#4 : BitVec 4).toNat + 1 + 15 < 32 ∧
    16 < (List.replicate 17 0xD370CFDE#32).length ∧ ¬ (15#4 : BitVec 4).toNat + 1 + 16 < 32 := by decide

theorem witness_DisposeFollowsThePolicy : (15#5 : BitVec 5).toNat < 16 ∧ 16 ≤ (16#5 : BitVec 5).toNat := by decide

theorem witness_LeaveIdleGivesTheTruncateResponse :
    (15#5 : BitVec 5).toNat < 16 ∧ (List.replicate 45 0x31#8 : List Byte).length ≤ Config.textLenMax :=
  ⟨by decide, le_textLenMax _ (by decide)⟩

theorem witness_EncodeRaisesTheFirstError :
    (List.replicate 45 0x31#8 : List Byte).length ≤ Config.textLenMax ∧
    ((0#32 : Word).toNat = 0 ∧ 0x1FFFFF < (0x200000#32 : Word).toNat) ∧
    (1 ≤ (1#32 : Word).toNat ∧ (1#32 : Word).toNat ≤ 0x1FFFFF ∧ (2#8 : Byte).toNat ∉ [0, 1, 3]) ∧
    ((0#8 : Byte).toNat ∈ [0, 1, 3] ∧ 2 < (3#8 : Byte).toNat) :=
  ⟨le_textLenMax _ (by decide), by decide, by decide, by decide⟩

/-- A legal request, message in Batch 1 (frame 7, one group), and one that reaches Batch 2 (frame 7, two groups). -/
theorem witness_EncodeAnswersTheTwoBatches :
    (chars [0x30, 0x31, 0x32, 0x33, 0x34]).length ≤ Config.textLenMax ∧
    1 ≤ (7#32 : Word).toNat ∧ (7#32 : Word).toNat ≤ 0x1FFFFF ∧ (3#8 : Byte).toNat ∈ [0, 1, 3] ∧ (2#8 : Byte).toNat ≤ 2 ∧
    2 * ((7#32 : Word).toNat % 8) + (min (chars [0x30, 0x31, 0x32, 0x33, 0x34]).length 40 + 4) / 5 = 15 ∧
    2 * ((7#32 : Word).toNat % 8) + (min (chars [0, 1, 2, 3, 4, 5]).length 40 + 4) / 5 = 16 :=
  ⟨le_textLenMax _ (by decide), by decide, by decide, by decide, by decide, by decide, by decide⟩

theorem witness_ResponseDependsOnTheRequestOnly :
    exec (.encode 0#32 0#8 0#8 false []) answered =
      .next (finish (raise .invalidAddress (presentRequest ⟨0#32, 0#8, 0#8, false, []⟩ answered))) ∧
    exec (.encode 0#32 0#8 0#8 false []) written =
      .next (finish (raise .invalidAddress (presentRequest ⟨0#32, 0#8, 0#8, false, []⟩ written))) := by
  constructor <;> exact execEncode_eq 0#32 0#8 0#8 false [] _ (Nat.zero_le _)

theorem witness_EncodeIsItsUnitsInOrder :
    (List.replicate 45 0x31#8 : List Byte).length ≤ Config.textLenMax ∧ (List.replicate 45 0x31#8 : List Byte).length ≤ 255 ∧
    1 ≤ (0x1FFFFF#32 : Word).toNat ∧ (0x1FFFFF#32 : Word).toNat ≤ 0x1FFFFF ∧ (3#8 : Byte).toNat ∈ [0, 1, 3] ∧
    (1#8 : Byte).toNat ≤ 2 :=
  ⟨le_textLenMax _ (by decide), by decide, by decide, by decide, by decide, by decide⟩

theorem witness_TheTwoBuildersCommute :
    1 ≤ (1#32 : Word).toNat ∧ (1#32 : Word).toNat ≤ 0x1FFFFF ∧ (0#8 : Byte).toNat ∈ [0, 1, 3] ∧
    (List.replicate 40 0x31#8 : List Byte).length ≤ 40 := by decide

theorem witness_CharactersPastTheFortiethAreIgnored :
    (List.replicate 45 0x31#8 : List Byte).length ≤ Config.textLenMax ∧
    (List.replicate 40 0x31#8 : List Byte).length ≤ Config.textLenMax ∧
    (List.replicate 45 0x31#8 : List Byte).take 40 = (List.replicate 40 0x31#8 : List Byte).take 40 :=
  ⟨le_textLenMax _ (by decide), le_textLenMax _ (by decide), by decide⟩

theorem witness_InvertPhaseComplementsTheResponse :
    (List.replicate 45 0x31#8 : List Byte).length ≤ Config.textLenMax ∧
    rspOf (exec (.encode 1#32 0#8 0#8 false []) State.reset) = some (.ok .one (allIdle.set 2 0#32) allIdle) :=
  ⟨le_textLenMax _ (by decide), test_encode_scenario_A⟩

theorem witness_CopyBatch1MakesTheBatchesIdentical :
    (chars [0x30, 0x31, 0x32, 0x33, 0x34]).length ≤ Config.textLenMax ∧
    1 ≤ (7#32 : Word).toNat ∧ (7#32 : Word).toNat ≤ 0x1FFFFF ∧ (1#8 : Byte).toNat ∈ [0, 1, 3] ∧
    2 * ((7#32 : Word).toNat % 8) + (min (chars [0x30, 0x31, 0x32, 0x33, 0x34]).length 40 + 4) / 5 < 16 :=
  ⟨le_textLenMax _ (by decide), by decide, by decide, by decide, by decide⟩

theorem witness_EveryOutputWordIsACodeword :
    ∃ t, exec (.encode 1#32 0#8 0#8 false []) State.reset = .next t ∧ t.rsp = .ok .one (allIdle.set 2 0#32) allIdle ∧ 15 < 16 :=
  ⟨_, execEncode_eq 1#32 0#8 0#8 false [] State.reset (Nat.zero_le _), by decide +kernel, by omega⟩

theorem witness_PolicyIsIdleOnceBatchTwoIsReached :
    (chars [0, 1, 2, 3, 4, 5]).length ≤ Config.textLenMax ∧
    1 ≤ (7#32 : Word).toNat ∧ (7#32 : Word).toNat ≤ 0x1FFFFF ∧ (1#8 : Byte).toNat ∈ [0, 1, 3] ∧ (2#8 : Byte).toNat ≤ 2 ∧
    16 ≤ 2 * ((7#32 : Word).toNat % 8) + (min (chars [0, 1, 2, 3, 4, 5]).length 40 + 4) / 5 :=
  ⟨le_textLenMax _ (by decide), by decide, by decide, by decide, by decide, by decide⟩

/-- The request of `written` with another function code and policy. -/
def rewritten (f q : BitVec 8) : State :=
  written.setReq { written.req with functionCode := some f, batch2Policy := some q }

theorem readRequest_rewritten (f q : BitVec 8) :
    readRequest (rewritten f q).req = .ok ⟨0x12D450#32, f, q, false, [0x35#8, 0x31#8]⟩ := by
  simp only [readRequest, rewritten, written, setReq_req, if_pos (le_textLenMax 2 (by omega))]
  rfl

theorem start_rewritten (f q : BitVec 8) :
    runPort .start (rewritten f q) = .next (transactionOn ⟨0x12D450#32, f, q, false, [0x35#8, 0x31#8]⟩ (rewritten f q)) := by
  simp only [runPort, startTransaction, readRequest_rewritten]

theorem witness_FunctionCodeRowsReachTheValidator :
    exec .fcIllegal2 written = .next (rewritten 2#8 0#8) ∧
    (∃ u, runPort .start (rewritten 2#8 0#8) = .next u) ∧
    exec (.fcIllegal4To255 4#8) written = .next (rewritten 4#8 0#8) ∧ 4 ≤ (4#8 : Byte).toNat ∧
    (∃ u, runPort .start (rewritten 4#8 0#8) = .next u) ∧
    exec .fcUp written = .next (rewritten 3#8 0#8) ∧ (∃ u, runPort .start (rewritten 3#8 0#8) = .next u) ∧
    written.req.address = some 0x12D450#32 ∧ 1 ≤ (0x12D450#32 : Word).toNat ∧ (0x12D450#32 : Word).toNat ≤ 0x1FFFFF :=
  ⟨rfl, ⟨_, start_rewritten _ _⟩, rfl, by decide, ⟨_, start_rewritten _ _⟩, rfl, ⟨_, start_rewritten _ _⟩, rfl, by decide,
    by decide⟩

theorem witness_PolicyRowsReachTheValidator :
    exec (.polIllegal3To255 3#8) written = .next (rewritten 3#8 3#8) ∧ 3 ≤ (3#8 : Byte).toNat ∧
    (∃ u, runPort .start (rewritten 3#8 3#8) = .next u) ∧
    exec .polLeaveidle written = .next (rewritten 3#8 2#8) ∧ (∃ u, runPort .start (rewritten 3#8 2#8) = .next u) ∧
    written.req.address = some 0x12D450#32 ∧ 1 ≤ (0x12D450#32 : Word).toNat ∧ (0x12D450#32 : Word).toNat ≤ 0x1FFFFF ∧
    written.req.functionCode = some 3#8 ∧ (3#8 : Byte).toNat ∈ [0, 1, 3] :=
  ⟨rfl, by decide, ⟨_, start_rewritten _ _⟩, rfl, ⟨_, start_rewritten _ _⟩, rfl, by decide, by decide, rfl, by decide⟩

theorem witness_InvertPhaseRowsSelectTheInversion :
    (∃ t, runPort .start { written with req := { written.req with invertPhase := some false } } = .next t ∧
      t.rsp = .ok .one ((allIdle.set 0 0x4B515A86#32).set 1 0xD40005D1#32) allIdle) ∧
    (rspOf (runPort .start { written with req := { written.req with invertPhase := some true } })).isSome = true :=
  ⟨⟨_, start_rewritten 3#8 0#8, by decide +kernel⟩, by decide +kernel⟩

theorem witness_StatusAndCountRowsReadTheirValue :
    statusOf (raise .invalidBatch2Policy answered).rsp = some (.err .invalidBatch2Policy) ∧
    statusOf answered.rsp = some .ok ∧ batchCountOf answered.rsp = some .one := ⟨rfl, rfl, rfl⟩

theorem witness_SymbolRowsGiveTheTable : (0x75#8 : Byte) ∉ listedCodes ∧ (0xFF#8 : Byte) ∉ listedCodes := by decide

end Sys2Proof.Tests
end

section
/-! SUPPORT. Presenting a request a second time, and running its transaction a second time, change nothing
(00_scope.md R5, 10_state.md R26). -/

namespace Sys2Proof.Machine

/-- Writing a character a second time changes nothing (R31). -/
@[simp] theorem write_write_same (mem : Memory) (i : Nat) (c : Byte) :
    Memory.write (Memory.write mem i c) i c = Memory.write mem i c := by
  induction mem with
  | nil => simp [Memory.write]
  | cons cell rest ih =>
    obtain ⟨a, b⟩ := cell
    simp only [Memory.write]
    split_ifs with h1 h2
    · simp [Memory.write]
    · simp [Memory.write]
    · simp [Memory.write, h1, h2, ih]

/-- A character that stands in the text, so that writing it changes nothing, still stands there after a write at
another index. No canonical form is needed: what lies before the cell has smaller indices already. -/
theorem write_eq_self_write_of_ne {mem : Memory} {i j : Nat} {c d : Byte} (hij : i ≠ j)
    (h : Memory.write mem i c = mem) : Memory.write (Memory.write mem j d) i c = Memory.write mem j d := by
  induction mem with
  | nil => simp [Memory.write] at h
  | cons cell rest ih =>
    obtain ⟨a, b⟩ := cell
    simp only [Memory.write] at h ⊢
    split_ifs at h with h1 h2
    · simp at h
    · subst h2
      split_ifs with h3 h4
      · simp [Memory.write, h, Nat.lt_asymm h3, hij]
      · exact absurd h4.symm hij
      · simpa [Memory.write] using h
    · have hrest : Memory.write rest i c = rest := by simpa using h
      split_ifs with h3 h4
      · have hji : ¬ i < j := by omega
        simp [Memory.write, hij, hji, h1, h2, hrest]
      · subst h4; simp [Memory.write, h1, h2, hrest]
      · simp [Memory.write, h1, h2, ih hrest]

/-- A character that stands below index j still stands there after a text is written from j on. -/
theorem write_eq_self_writeText (text : List Byte) : ∀ {mem : Memory} {i j : Nat} {c : Byte}, i < j →
    Memory.write mem i c = mem →
    Memory.write (Memory.writeText mem j text) i c = Memory.writeText mem j text := by
  induction text with
  | nil => exact fun _ h => h
  | cons d ds ih => exact fun hij h => ih (by omega) (write_eq_self_write_of_ne (by omega) h)

/-- Writing a text a second time changes nothing. -/
@[simp] theorem writeText_writeText_same (text : List Byte) : ∀ (mem : Memory) (i : Nat),
    Memory.writeText (Memory.writeText mem i text) i text = Memory.writeText mem i text := by
  induction text with
  | nil => exact fun _ _ => rfl
  | cons c cs ih =>
    intro mem i
    simp only [Memory.writeText]
    rw [write_eq_self_writeText cs (Nat.lt_succ_self i) (write_write_same mem i c), ih]

/-- Presenting a request a second time changes nothing (R63). -/
@[simp] theorem presentRequest_presentRequest (q : Request) (s : State) :
    presentRequest q (presentRequest q s) = presentRequest q s := by
  simp [presentRequest, State.setReq]

/-- A transaction neither reads nor writes REQ (R23), so a request may as well be presented before it. -/
theorem presentRequest_transactionOn (q q' : Request) (s : State) :
    presentRequest q (transactionOn q' s) = transactionOn q' (presentRequest q s) := by
  rw [transactionOn_eq, transactionOn_eq (presentRequest q s), transactionOn_rsp (presentRequest q s) q' s]
  rfl

/-- A transaction leaves the call-scoped values empty, whatever the request (R22). -/
@[simp] theorem transactionOn_work (q : Request) (s : State) : (transactionOn q s).work = Work.fresh := by
  rw [transactionOn_eq]

/-- Running a transaction again on what it left changes nothing (R26). -/
@[simp] theorem transactionOn_transactionOn (q : Request) (s : State) :
    transactionOn q (transactionOn q s) = transactionOn q s := by
  rw [transactionOn_eq (transactionOn q s), transactionOn_rsp _ q s, ← transactionOn_work q s]

/-- Issuing ENCODE is the meaning of its row (R145). -/
theorem exec_encode (a : BitVec 32) (f q : BitVec 8) (v : Bool) (text : List Byte) (s : State) :
    exec (.encode a f q v text) s = execEncode a f q v text s := rfl

/-- ENCODE repeated from its own result answers that state again (R5). -/
theorem execEncode_again {a : BitVec 32} {f q : BitVec 8} {v : Bool} {text : List Byte} {s t : State}
    (h : execEncode a f q v text s = .next t) : execEncode a f q v text t = .next t := by
  obtain ⟨hlen, rfl⟩ := execEncode_next h
  rw [execEncode_eq a f q v text _ hlen, presentRequest_transactionOn, presentRequest_presentRequest,
    transactionOn_transactionOn]

/-- Settles O42: both calls are the transaction on the same request, whose response is a function of the request
alone; the second call presents what REQ already holds. -/
theorem responseDependsOnTheRequestOnly : Obligations.ResponseDependsOnTheRequestOnly := by
  intro a f q v text s1 s2 t1 t2 h1 h2
  rw [exec_encode] at h1 h2
  obtain ⟨-, e1⟩ := execEncode_next h1
  obtain ⟨-, e2⟩ := execEncode_next h2
  refine ⟨?_, ?_, execEncode_again h1⟩
  · rw [e1, e2]; exact transactionOn_rsp _ _ _
  · rw [e1, e2, transactionOn_work, transactionOn_work]

end Sys2Proof.Machine
end

section
/-! SUPPORT. The byte views OUT1 and OUT2: one byte of the view, and what a host's read of them answers
(20_memory.md R35 to R37). -/

namespace Sys2Proof.Machine

/-- Byte j of a codeword is bits 31-8j..24-8j (R36, R139). -/
theorem serialize_getElem? (v : Word) {j : Nat} (hj : j < 4) :
    (serialize v)[j]? = some (v.extractLsb' (24 - 8 * j) 8) := by
  match j, hj with
  | 0, _ | 1, _ | 2, _ | 3, _ => rfl

/-- The byte view of a batch holds 64 bytes (R35). -/
@[simp] theorem byteView_length (b : Batch) : (byteView b).length = 64 := by
  simp [byteView, List.length_flatMap, serialize]

/-- Byte j of slot i stands at offset 4*i + j of the byte view (R36). -/
theorem byteView_getElem? (b : Batch) {i j : Nat} (hi : i < 16) (hj : j < 4) :
    (byteView b)[4 * i + j]? = some ((b[i]).extractLsb' (24 - 8 * j) 8) := by
  rw [← serialize_getElem? _ hj, ← byteView_slot b i hi, List.getElem?_take_of_lt hj, List.getElem?_drop]

section
variable {s : State} {b : BatchSel} {batch : Batch} (hb : batchOf s.rsp b = some batch)
include hb

/-- A read within offsets 0..63 answers that stretch of the byte view (R36, R37). -/
theorem runPort_readBytes_within {a n : Nat} (h : a + n ≤ 64) :
    runPort (.readBytes b a n) s = .next { s with result := .bytes (((byteView batch).drop a).take n) } := by
  simp only [runPort, readBytes, hb, if_pos h, State.setResult]

/-- A read past offset 63 is refused (R37, U9). -/
theorem runPort_readBytes_past {a n : Nat} (h : 64 < a + n) :
    runPort (.readBytes b a n) s = .refused .outsideView := by
  simp only [runPort, readBytes, hb, if_neg (Nat.not_le.mpr h)]

/-- A read of one byte answers the byte at its offset. -/
theorem runPort_readBytes_one {a : Nat} {x : Byte} (hx : (byteView batch)[a]? = some x) :
    runPort (.readBytes b a 1) s = .next { s with result := .bytes [x] } := by
  obtain ⟨ha, rfl⟩ := List.getElem?_eq_some_iff.mp hx
  have h64 : a + 1 ≤ 64 := by simpa using ha
  rw [runPort_readBytes_within hb h64, List.drop_eq_getElem_cons ha, List.take_succ_cons, List.take_zero]

/-- A read of n bytes within the view answers the n single bytes in order (R37). -/
theorem runPort_readBytes_bytewise {a n : Nat} (h : a + n ≤ 64) :
    ∃ bs, runPort (.readBytes b a n) s = .next { s with result := .bytes bs } ∧ bs.length = n ∧
      ∀ k < n, ∃ x, bs[k]? = some x ∧ runPort (.readBytes b (a + k) 1) s = .next { s with result := .bytes [x] } := by
  refine ⟨_, runPort_readBytes_within hb h, ?_, fun k hk => ?_⟩
  · rw [List.length_take, List.length_drop, byteView_length]; omega
  · have hlt : a + k < (byteView batch).length := by rw [byteView_length]; omega
    have hx := List.getElem?_eq_getElem hlt
    refine ⟨_, ?_, runPort_readBytes_one hb hx⟩
    rw [List.getElem?_take_of_lt hk, List.getElem?_drop, hx]

end

/-- Settles O17: under Ok each batch has its byte view; a read within it is a stretch of the view, whose byte 4*i + j
is byte j of SERIALIZE of slot i. -/
theorem byteViewIsBigEndian : Obligations.ByteViewIsBigEndian := by
  intro s c b1 b2 hok
  have h1 : batchOf s.rsp .first = some b1 := by rw [hok]; rfl
  have h2 : batchOf s.rsp .second = some b2 := by rw [hok]; rfl
  have hb : ∀ b, ∃ batch, batchOf s.rsp b = some batch
    | .first => ⟨b1, h1⟩
    | .second => ⟨b2, h2⟩
  refine ⟨fun i j hi hj => ⟨?_, ?_⟩, fun b a n h => ?_, fun b a n h => ?_⟩
  · exact runPort_readBytes_one h1 (byteView_getElem? b1 hi hj)
  · exact runPort_readBytes_one h2 (byteView_getElem? b2 hi hj)
  · obtain ⟨batch, hbatch⟩ := hb b
    exact runPort_readBytes_bytewise hbatch h
  · obtain ⟨batch, hbatch⟩ := hb b
    exact runPort_readBytes_past hbatch h

end Sys2Proof.Machine
end

section
/-! SUPPORT. EVENPAR as an operation: the condition it tests as a count, its two outcomes, and the row's meaning
(41_bch_encoder.md R84, R86). -/

namespace Sys2Proof.Machine

theorem oddPopcount_eq_true_iff (w : Word) : oddPopcount w = true ↔ popcount32 w % 2 = 1 := by
  rw [oddPopcount, decide_eq_true_iff]

theorem oddPopcount_eq_false_iff (w : Word) : oddPopcount w = false ↔ popcount32 w % 2 = 0 := by
  rw [oddPopcount, decide_eq_false_iff_not, ← ne_eq, Nat.mod_two_ne_one]

/-- EVENPAR adds 1 to an operand with an odd count (R84). -/
theorem evenpar_of_odd {u : Word} (h : popcount32 u % 2 = 1) : evenpar u = u + 1#32 := by
  rw [evenpar, if_pos ((oddPopcount_eq_true_iff u).mpr h)]

/-- EVENPAR leaves an operand with an even count as it is (R84). -/
theorem evenpar_of_even {u : Word} (h : popcount32 u % 2 = 0) : evenpar u = u := by
  rw [evenpar, (oddPopcount_eq_false_iff u).mpr h, if_neg Bool.false_ne_true]

/-- Issuing EVENPAR on an operand with bit 0 clear answers its value and changes only the answer record (R84). -/
theorem exec_evenpar {u : Word} (h : u.getLsbD 0 = false) (s : State) :
    exec (.evenpar u) s = .next { s with result := .word (evenpar u) } := by
  have hexec : exec (.evenpar u) s = execEvenpar u s := rfl
  rw [hexec, execEvenpar, h, if_neg Bool.false_ne_true, State.setResult]

/-- Settles O23: the answer is `evenpar u`, one case per parity; adding 1 is setting the clear bit 0, which turns an
odd count even. -/
theorem evenparMakesTheCountEven : Obligations.EvenparMakesTheCountEven := by
  intro u s h
  refine ⟨evenpar u, exec_evenpar h s, fun hodd => ⟨evenpar_of_odd hodd, ?_⟩, evenpar_of_even, ?_⟩
  · rw [evenpar_of_odd hodd, add_one_eq_or u h]
  · exact (oddPopcount_eq_false_iff _).mp (evenpar_even u h)

end Sys2Proof.Machine
end

section
/-! SUPPORT. REV4 as an operation: it is the library's reversal of a 4-bit vector, and the row's meaning
(43_message_encoder.md R103). -/

namespace Sys2Proof.Machine

/-- The four masks and shifts of REV4 reverse the bit order (R103); the 16 values are checked one by one. -/
theorem rev4_eq_reverse : ∀ x : BitVec 4, rev4 x = x.reverse := by decide

/-- Bit i of REV4's answer is bit 3-i of its operand (R103). -/
theorem rev4_getLsbD (x : BitVec 4) {i : Nat} (hi : i < 4) : (rev4 x).getLsbD i = x.getLsbD (3 - i) := by
  rw [rev4_eq_reverse, BitVec.getLsbD_reverse, BitVec.getMsbD_eq_getLsbD, decide_eq_true hi, Bool.true_and]

/-- Reversing twice is the identity (R103). -/
@[simp] theorem rev4_rev4 (x : BitVec 4) : rev4 (rev4 x) = x := by
  rw [rev4_eq_reverse, rev4_eq_reverse, BitVec.reverse_reverse_eq]

/-- Issuing REV4 answers the reversed value and changes only the answer record (R103). -/
theorem exec_rev4 (x : BitVec 4) (s : State) : exec (.rev4 x) s = .next { s with result := .nibble (rev4 x) } := rfl

/-- Settles O30: the answer is `rev4 x`, whose bit i is bit 3-i of x; issuing REV4 on it answers `rev4 (rev4 x)`,
which is x. -/
theorem rev4ReversesTheBits : Obligations.Rev4ReversesTheBits := by
  intro x s
  have hbit : ∀ i < 4, (rev4 x).getLsbD i = x.getLsbD (3 - i) := fun _ => rev4_getLsbD x
  have hback : exec (.rev4 (rev4 x)) s = .next { s with result := .nibble x } := by rw [exec_rev4, rev4_rev4]
  exact ⟨rev4 x, exec_rev4 x s,
    ⟨hbit 0 (by decide), hbit 1 (by decide), hbit 2 (by decide), hbit 3 (by decide)⟩, hback⟩

end Sys2Proof.Machine
end

section
/-! SUPPORT. INVERT as an operation, and what invertPhase does to the response of a transaction
(45_postprocessor.md R136, R137). -/

namespace Sys2Proof.Machine

/-- Issuing INVERT changes the slot array and nothing else (R136). -/
theorem exec_invert (b : Bool) (s : State) :
    exec (.invert b) s = .next { s with work := { s.work with slots := invertSlots b s.work.slots } } := rfl

/-- A slot after INVERT with 1 is the complement of the slot before (R136). -/
theorem invertSlots_true_getElem (slots : Slots) {k : Nat} (h : k < 32) :
    (invertSlots true slots)[k] = ~~~slots[k] :=
  invertSlots_getElem true slots k h

/-- Settles O38: the new slot array is `invertSlots true` of the old one, and inverting twice gives the old one back. -/
theorem invertComplementsEverySlot : Obligations.InvertComplementsEverySlot := by
  intro s
  refine ⟨exec_invert false s, _, exec_invert true s, fun k h => invertSlots_true_getElem _ h, ?_⟩
  rw [exec_invert, invertSlots_twice]

/-- The status read under Ok, whatever the batches (R17). -/
@[simp] theorem statusOf_ok (c : BatchCount) (b1 b2 : Batch) : statusOf (.ok c b1 b2) = some .ok := rfl

/-- The batch count read under Ok, whatever the batches (R17). -/
@[simp] theorem batchCountOf_ok (c : BatchCount) (b1 b2 : Batch) : batchCountOf (.ok c b1 b2) = some c := rfl

/-- The slot array before inversion does not depend on invertPhase, and VALIDATE does not look at it: the responses
without and with it, from any two states, are the same error or hold a slot array and its complement under one count
(R137, R145). -/
theorem transactionOn_rsp_without_and_with_invertPhase (a : BitVec 32) (f q : BitVec 8) (text : List Byte)
    (s s' : State) :
    (∃ k, (transactionOn ⟨a, f, q, false, text⟩ s).rsp = .err k ∧
      (transactionOn ⟨a, f, q, true, text⟩ s').rsp = .err k) ∨
    (∃ c slots, (transactionOn ⟨a, f, q, false, text⟩ s).rsp = .ok c (firstBatch slots) (secondBatch slots) ∧
      (transactionOn ⟨a, f, q, true, text⟩ s').rsp =
        .ok c (firstBatch (invertSlots true slots)) (secondBatch (invertSlots true slots))) := by
  cases hv : validate a f q with
  | err k =>
    refine .inl ⟨k, ?_, ?_⟩
    · rw [transactionOn_err s hv]; rfl
    · rw [transactionOn_err s' hv]; rfl
  | ok =>
    refine .inr ⟨(disposedSlots ⟨a, f, q, false, text⟩).1, (disposedSlots ⟨a, f, q, false, text⟩).2, ?_, ?_⟩
    · rw [transactionOn_ok s hv]; rfl
    · rw [transactionOn_ok s' hv]; rfl

/-- Settles O46: both calls are transactions on requests that differ in invertPhase only; in the error case the
responses are equal, in the other each word of a batch is a slot. -/
theorem invertPhaseComplementsTheResponse : Obligations.InvertPhaseComplementsTheResponse := by
  intro a f q text s hlen
  refine ⟨_, _, execEncode_eq a f q false text s hlen, execEncode_eq a f q true text s hlen, ?_⟩
  obtain ⟨k, ht, hu⟩ | ⟨c, slots, ht, hu⟩ := transactionOn_rsp_without_and_with_invertPhase a f q text
    (presentRequest ⟨a, f, q, false, text⟩ s) (presentRequest ⟨a, f, q, true, text⟩ s)
  · rw [ht, hu]
    exact ⟨rfl, rfl, fun _ _ _ h => nomatch h⟩
  · rw [ht, hu]
    refine ⟨by rw [statusOf_ok, statusOf_ok], by rw [batchCountOf_ok, batchCountOf_ok], ?_⟩
    rintro c' b1 b2 ⟨⟩
    refine ⟨_, _, rfl, fun i hi => ⟨?_, ?_⟩⟩
    · rw [firstBatch_getElem, firstBatch_getElem, invertSlots_true_getElem]
    · rw [secondBatch_getElem, secondBatch_getElem, invertSlots_true_getElem]

end Sys2Proof.Machine
end

section
/-! SUPPORT. TRUNCATE as an operation, and the part of the text a response depends on
(46_encode_transaction.md R144). -/

namespace Sys2Proof.Machine

/-- Issuing TRUNCATE sets n and nothing else (R144). -/
theorem exec_truncate (len : BitVec 8) (s : State) :
    exec (.truncate len) s = .next { s with work := { s.work with n := min len.toNat 40 } } := rfl

/-- Two texts with the same first 40 characters fill the same slots under the same count (R144, R145). -/
theorem disposedSlots_congr_text {text text' : List Byte} (h : text.take 40 = text'.take 40)
    (a : BitVec 32) (f q : BitVec 8) (v : Bool) :
    disposedSlots ⟨a, f, q, v, text⟩ = disposedSlots ⟨a, f, q, v, text'⟩ := by
  rw [disposedSlots_eq, disposedSlots_eq, h]

/-- Two texts with the same first 40 characters give the same response, from any two states: the error does not
depend on the text, and the two batches are cut from equal slots (R144). -/
theorem transactionOn_rsp_congr_text {text text' : List Byte} (h : text.take 40 = text'.take 40)
    (a : BitVec 32) (f q : BitVec 8) (v : Bool) (s s' : State) :
    (transactionOn ⟨a, f, q, v, text⟩ s).rsp = (transactionOn ⟨a, f, q, v, text'⟩ s').rsp := by
  cases hv : validate a f q with
  | err k => rw [transactionOn_err s hv, transactionOn_err s' hv]; rfl
  | ok => rw [transactionOn_ok s hv, transactionOn_ok s' hv, disposedSlots_congr_text h]; rfl

/-- Settles O45: TRUNCATE is read off its row; both ENCODE calls are transactions on requests whose texts agree in
the 40 characters the response is made from. -/
theorem charactersPastTheFortiethAreIgnored : Obligations.CharactersPastTheFortiethAreIgnored := by
  refine ⟨exec_truncate, fun a f q v text text' s hlen hlen' htake => ?_⟩
  exact ⟨_, _, execEncode_eq a f q v text s hlen, execEncode_eq a f q v text' s hlen',
    transactionOn_rsp_congr_text htake a f q v _ _⟩

end Sys2Proof.Machine
end

section
/-! SUPPORT. Operand words of at most one byte, and the fields of the wider operand words: fields put side by side are
found again, and a word is its fields put side by side (30_encoding.md R47, R48, R64, log 6). -/

namespace Sys2Proof

/-! ### Words of at most a byte -/

/-- A byte alone is the number it spells. -/
theorem beBytes_one (b : Byte) : beBytes 1 b.toNat = [b] := by simp [beBytes]

/-- A byte is read as the value of at most 8 bits that it holds. -/
theorem withWord_byte {width : Nat} (x : BitVec width) (h : width ≤ 8) (tail : List Byte)
    (f : BitVec width → List Byte → DecodeResult) : withWord 1 width (x.setWidth 8 :: tail) f = f x tail := by
  have hx : beBytes 1 x.toNat = [x.setWidth 8] := by
    rw [← BitVec.toNat_setWidth_of_le h, beBytes_one]
  have hw : (2 : Nat) ^ width ≤ 256 ^ 1 := Nat.pow_le_pow_right (n := 2) (by decide) h
  rw [← List.singleton_append, ← hx, withWord_beBytes x tail f hw]

/-- What a successful read of at most 8 bits says of the bytes. -/
theorem withWord_byte_ok {width : Nat} (h : width ≤ 8) {bs : List Byte} {f : BitVec width → List Byte → DecodeResult}
    {r : Instr × List Byte} (hr : withWord 1 width bs f = .ok r) :
    ∃ (x : BitVec width) (rest : List Byte), bs = x.setWidth 8 :: rest ∧ f x rest = .ok r := by
  obtain ⟨x, rest, rfl, hf⟩ := withWord_ok hr
  refine ⟨x, rest, ?_, hf⟩
  rw [← BitVec.toNat_setWidth_of_le h, beBytes_one, List.singleton_append]

/-! ### The fields of the operand words -/

theorem extractLsb'_eq_of_getLsbD {n k start : Nat} {w : BitVec n} {x : BitVec k}
    (h : ∀ i < k, w.getLsbD (start + i) = x.getLsbD i) : w.extractLsb' start k = x :=
  BitVec.eq_of_getLsbD_eq fun i hi => by rw [BitVec.getLsbD_extractLsb', h i hi, decide_eq_true hi, Bool.true_and]

section Append
variable {m n k : Nat}

theorem extractLsb'_append3_left (x : BitVec m) (y : BitVec n) (z : BitVec k) :
    (x ++ y ++ z).extractLsb' (n + k) m = x := by
  rw [BitVec.extractLsb'_append_eq_of_le (Nat.le_add_left k n), Nat.add_sub_cancel, BitVec.extractLsb'_append_eq_left]

theorem extractLsb'_append3_middle (x : BitVec m) (y : BitVec n) (z : BitVec k) :
    (x ++ y ++ z).extractLsb' k n = y := by
  rw [BitVec.extractLsb'_append_eq_of_le (Nat.le_refl k), Nat.sub_self, BitVec.extractLsb'_append_eq_right]

theorem append_extractLsb' (v : BitVec (m + k)) : v.extractLsb' k m ++ v.extractLsb' 0 k = v := by
  rw [BitVec.extractLsb'_append_extractLsb'_eq_extractLsb' (Nat.zero_add k).symm, BitVec.extractLsb'_eq_self]

theorem append3_extractLsb' (v : BitVec (m + n + k)) :
    v.extractLsb' (n + k) m ++ v.extractLsb' k n ++ v.extractLsb' 0 k = v := by
  rw [BitVec.extractLsb'_append_extractLsb'_eq_extractLsb' (Nat.add_comm n k), append_extractLsb']

theorem getLsbD_zero_append_ofBool (x : BitVec m) (b : Bool) : (x ++ BitVec.ofBool b).getLsbD 0 = b := by
  rw [BitVec.getLsbD_append, if_pos Nat.one_pos]
  cases b <;> rfl

theorem ofBool_getLsbD_zero (v : BitVec m) : BitVec.ofBool (v.getLsbD 0) = v.extractLsb' 0 1 := by
  refine (extractLsb'_eq_of_getLsbD fun i hi => ?_).symm
  obtain rfl : i = 0 := Nat.lt_one_iff.mp hi
  cases v.getLsbD 0 <;> rfl

end Append

/-- The fields of an address codeword stand at the bit positions of R47. -/
theorem addrBits_fields (t : BitVec 1) (a : BitVec 18) (f : BitVec 2) (c : BitVec 10) (p : BitVec 1) :
    (addrBits t a f c p).extractLsb' 13 18 = a ∧ (addrBits t a f c p).extractLsb' 11 2 = f ∧
      (addrBits t a f c p).extractLsb' 1 10 = c ∧ (addrBits t a f c p).extractLsb' 0 1 = p ∧
      (addrBits t a f c p).getLsbD 31 = t.getLsbD 0 := by
  refine ⟨?_, ?_, ?_, ?_, addrBits_getLsbD t a f c p 31⟩ <;>
    exact extractLsb'_eq_of_getLsbD fun i hi => by grind [addrBits_getLsbD]

/-- The fields of a message codeword stand at the bit positions of R48. -/
theorem msgBits_fields (t : BitVec 1) (n0 n1 n2 n3 n4 : BitVec 4) (c : BitVec 10) (p : BitVec 1) :
    (msgBits t n0 n1 n2 n3 n4 c p).extractLsb' 27 4 = n0 ∧ (msgBits t n0 n1 n2 n3 n4 c p).extractLsb' 23 4 = n1 ∧
      (msgBits t n0 n1 n2 n3 n4 c p).extractLsb' 19 4 = n2 ∧ (msgBits t n0 n1 n2 n3 n4 c p).extractLsb' 15 4 = n3 ∧
      (msgBits t n0 n1 n2 n3 n4 c p).extractLsb' 11 4 = n4 ∧ (msgBits t n0 n1 n2 n3 n4 c p).extractLsb' 1 10 = c ∧
      (msgBits t n0 n1 n2 n3 n4 c p).extractLsb' 0 1 = p ∧
      (msgBits t n0 n1 n2 n3 n4 c p).getLsbD 31 = t.getLsbD 0 := by
  refine ⟨?_, ?_, ?_, ?_, ?_, ?_, ?_, msgBits_getLsbD t n0 n1 n2 n3 n4 c p 31⟩ <;>
    exact extractLsb'_eq_of_getLsbD fun i hi => by grind [msgBits_getLsbD]

/-- A word is the address codeword of its own fields. -/
theorem addrBits_extractLsb' {t : BitVec 1} {w : Word} (ht : w.getLsbD 31 = t.getLsbD 0) :
    addrBits t (w.extractLsb' 13 18) (w.extractLsb' 11 2) (w.extractLsb' 1 10) (w.extractLsb' 0 1) = w :=
  BitVec.eq_of_getLsbD_eq fun i hi => by grind [addrBits_getLsbD]

/-- A word is the message codeword of its own fields. -/
theorem msgBits_extractLsb' {t : BitVec 1} {w : Word} (ht : w.getLsbD 31 = t.getLsbD 0) :
    msgBits t (w.extractLsb' 27 4) (w.extractLsb' 23 4) (w.extractLsb' 19 4) (w.extractLsb' 15 4) (w.extractLsb' 11 4)
      (w.extractLsb' 1 10) (w.extractLsb' 0 1) = w :=
  BitVec.eq_of_getLsbD_eq fun i hi => by grind [msgBits_getLsbD]

end Sys2Proof
end

section
/-! SUPPORT. The value rows: each place reads a value as its row, and that row is well-formed and encoded as the value
(30_encoding.md R46 to R50, R53 to R58). -/

namespace Sys2Proof

theorem functionCodeRow_of_ge {v : BitVec 8} (h : 4 ≤ v.toNat) : functionCodeRow v = .fcIllegal4To255 v := by
  have hne : ∀ k < 4, v ≠ BitVec.ofNat 8 k := fun k hk => by bv_omega
  rw [functionCodeRow, if_neg (hne 0 (by decide)), if_neg (hne 1 (by decide)), if_neg (hne 2 (by decide)),
    if_neg (hne 3 (by decide))]

theorem policyRow_of_ge {v : BitVec 8} (h : 3 ≤ v.toNat) : policyRow v = .polIllegal3To255 v := by
  have hne : ∀ k < 3, v ≠ BitVec.ofNat 8 k := fun k hk => by bv_omega
  rw [policyRow, if_neg (hne 0 (by decide)), if_neg (hne 1 (by decide)), if_neg (hne 2 (by decide))]

theorem symbolRow_of_not_listed {c : Byte} (h : c ∉ listedCodes) : symbolRow c = .symDefault c := by
  simp only [listedCodes, List.mem_cons, List.not_mem_nil, or_false, not_or] at h
  simp only [symbolRow, h, if_false]

/-- The row of a function code is well-formed and encoded as that value (R56). -/
theorem functionCodeRow_encode (v : BitVec 8) :
    wellFormed (functionCodeRow v) = true ∧ encode (functionCodeRow v) = (.fc8, [v]) := by
  unfold functionCodeRow
  split_ifs with h0 h1 h2 h3
  · subst h0; decide
  · subst h1; decide
  · subst h2; decide
  · subst h3; decide
  · refine ⟨decide_eq_true ?_, rfl⟩
    bv_omega

/-- The row of a policy is well-formed and encoded as that value (R57). -/
theorem policyRow_encode (v : BitVec 8) :
    wellFormed (policyRow v) = true ∧ encode (policyRow v) = (.pol8, [v]) := by
  unfold policyRow
  split_ifs with h0 h1 h2
  · subst h0; decide
  · subst h1; decide
  · subst h2; decide
  · refine ⟨decide_eq_true ?_, rfl⟩
    bv_omega

theorem statusRow_encode : ∀ v : BitVec 2,
    wellFormed (statusRow v) = true ∧ encode (statusRow v) = (.st2, [v.setWidth 8]) := by decide

theorem nibbleRow_encode : ∀ x : BitVec 4,
    wellFormed (nibbleRow x) = true ∧ encode (nibbleRow x) = (.nib4, [x.setWidth 8]) := by decide

theorem symbolRow_encode (c : Byte) :
    wellFormed (symbolRow c) = true ∧ encode (symbolRow c) = (.char8, [c]) := by
  by_cases h : c ∈ listedCodes
  · revert c
    decide
  · rw [symbolRow_of_not_listed h]
    exact ⟨by simpa [wellFormed] using h, rfl⟩

theorem codewordRow_encode (w : Word) :
    wellFormed (codewordRow w) = true ∧ encode (codewordRow w) = (.cw, beBytes 4 w.toNat) := by
  unfold codewordRow
  split_ifs with h h31
  · subst h; exact ⟨rfl, rfl⟩
  · exact ⟨rfl, by rw [encode, msgBits_extractLsb' (by rw [h31]; rfl)]⟩
  · have hw := addrBits_extractLsb' (t := 0#1) (w := w) (by rw [Bool.not_eq_true] at h31; rw [h31]; rfl)
    refine ⟨?_, by rw [encode, hw]⟩
    rw [wellFormed, hw, decide_eq_true h]

theorem codewordInvertedRow_encode (w : Word) :
    wellFormed (codewordInvertedRow w) = true ∧ encode (codewordInvertedRow w) = (.cwInverted, beBytes 4 w.toNat) := by
  unfold codewordInvertedRow
  split_ifs with h h31
  · subst h; exact ⟨rfl, rfl⟩
  · have hw := addrBits_extractLsb' (t := 1#1) (w := w) (by rw [h31]; rfl)
    refine ⟨?_, by rw [encode, hw]⟩
    rw [wellFormed, hw, decide_eq_true h]
  · rw [Bool.not_eq_true] at h31
    exact ⟨rfl, by rw [encode, msgBits_extractLsb' (by rw [h31]; rfl)]⟩

/-- An address codeword other than idle is read as the row of its fields (R47). -/
theorem codewordRow_addrBits {a : BitVec 18} {f : BitVec 2} {c : BitVec 10} {p : BitVec 1}
    (h : addrBits 0#1 a f c p ≠ Config.idle) : codewordRow (addrBits 0#1 a f c p) = .cwAddr a f c p := by
  obtain ⟨ha, hf, hc, hp, ht⟩ := addrBits_fields 0#1 a f c p
  rw [codewordRow, if_neg h, ha, hf, hc, hp, ht]
  rfl

theorem codewordRow_msgBits (n0 n1 n2 n3 n4 : BitVec 4) (c : BitVec 10) (p : BitVec 1) :
    codewordRow (msgBits 1#1 n0 n1 n2 n3 n4 c p) = .cwMsg n0 n1 n2 n3 n4 c p := by
  obtain ⟨h0, h1, h2, h3, h4, hc, hp, ht⟩ := msgBits_fields 1#1 n0 n1 n2 n3 n4 c p
  have hidle : msgBits 1#1 n0 n1 n2 n3 n4 c p ≠ Config.idle := fun h => by rw [h] at ht; exact absurd ht (by decide)
  rw [codewordRow, if_neg hidle, h0, h1, h2, h3, h4, hc, hp, ht]
  rfl

theorem codewordInvertedRow_addrBits {a : BitVec 18} {f : BitVec 2} {c : BitVec 10} {p : BitVec 1}
    (h : addrBits 1#1 a f c p ≠ ~~~Config.idle) :
    codewordInvertedRow (addrBits 1#1 a f c p) = .cwAddrInverted a f c p := by
  obtain ⟨ha, hf, hc, hp, ht⟩ := addrBits_fields 1#1 a f c p
  rw [codewordInvertedRow, if_neg h, ha, hf, hc, hp, ht]
  rfl

theorem codewordInvertedRow_msgBits (n0 n1 n2 n3 n4 : BitVec 4) (c : BitVec 10) (p : BitVec 1) :
    codewordInvertedRow (msgBits 0#1 n0 n1 n2 n3 n4 c p) = .cwMsgInverted n0 n1 n2 n3 n4 c p := by
  obtain ⟨h0, h1, h2, h3, h4, hc, hp, ht⟩ := msgBits_fields 0#1 n0 n1 n2 n3 n4 c p
  have hidle : msgBits 0#1 n0 n1 n2 n3 n4 c p ≠ ~~~Config.idle :=
    fun h => by rw [h] at ht; exact absurd ht (by decide)
  rw [codewordInvertedRow, if_neg hidle, h0, h1, h2, h3, h4, hc, hp, ht]
  rfl

section Decode
variable (tail : List Byte)

theorem decode_fc8 (v : BitVec 8) : decode .fc8 (v :: tail) = .ok (functionCodeRow v, tail) := by
  rw [decode]; exact withWord_byte v le_rfl tail _

theorem decode_pol8 (v : BitVec 8) : decode .pol8 (v :: tail) = .ok (policyRow v, tail) := by
  rw [decode]; exact withWord_byte v le_rfl tail _

theorem decode_st2 (v : BitVec 2) : decode .st2 (v.setWidth 8 :: tail) = .ok (statusRow v, tail) := by
  rw [decode]; exact withWord_byte v (by decide) tail _

theorem decode_char8 (c : Byte) : decode .char8 (c :: tail) = .ok (symbolRow c, tail) := by
  rw [decode]; exact withWord_byte c le_rfl tail _

theorem decode_nib4 (x : BitVec 4) : decode .nib4 (x.setWidth 8 :: tail) = .ok (nibbleRow x, tail) := by
  rw [decode]; exact withWord_byte x (by decide) tail _

theorem decode_bc2 (v : BitVec 2) :
    decode .bc2 (v.setWidth 8 :: tail) =
      if v = 1#2 then .ok (.batchcount1, tail) else if v = 2#2 then .ok (.batchcount2, tail) else .error .noRow := by
  rw [decode]; exact withWord_byte v (by decide) tail _

theorem decode_b1 (v : BitVec 1) :
    decode .b1 (v.setWidth 8 :: tail) = .ok (if v.getLsbD 0 then .invertTrue else .invertFalse, tail) := by
  rw [decode]; exact withWord_byte v (by decide) tail _

theorem decode_cw (w : Word) : decode .cw (beBytes 4 w.toNat ++ tail) = .ok (codewordRow w, tail) := by
  rw [decode, withWord_beBytes w tail _ (by norm_num)]

theorem decode_cwInverted (w : Word) :
    decode .cwInverted (beBytes 4 w.toNat ++ tail) = .ok (codewordInvertedRow w, tail) := by
  rw [decode, withWord_beBytes w tail _ (by norm_num)]

end Decode

end Sys2Proof
end

section
/-! SUPPORT. Decoding what was encoded, row by row (30_encoding.md R64). -/

namespace Sys2Proof

section DecodeEncode
variable (tail : List Byte)

theorem ofNat8_length_toNat {text : List Byte} (h : text.length ≤ 255) :
    (BitVec.ofNat 8 text.length).toNat = text.length := by
  rw [BitVec.toNat_ofNat]; omega

theorem decode_encode_encode (a : BitVec 32) (f q : BitVec 8) (i : Bool) {text : List Byte} (h : text.length ≤ 255) :
    decode .encode ((encode (.encode a f q i text)).2 ++ tail) = .ok (.encode a f q i text, tail) := by
  have ha : (a ++ f ++ q ++ BitVec.ofBool i).extractLsb' 17 32 = a := by
    rw [BitVec.extractLsb'_append_eq_of_le (by decide)]; exact extractLsb'_append3_left a f q
  have hf : (a ++ f ++ q ++ BitVec.ofBool i).extractLsb' 9 8 = f := by
    rw [BitVec.extractLsb'_append_eq_of_le (by decide)]; exact extractLsb'_append3_middle a f q
  have hq : (a ++ f ++ q ++ BitVec.ofBool i).extractLsb' 1 8 = q := extractLsb'_append3_middle (a ++ f) q _
  have hi : (a ++ f ++ q ++ BitVec.ofBool i).getLsbD 0 = i := getLsbD_zero_append_ofBool (a ++ f ++ q) i
  rw [encode, decode, List.append_assoc]
  refine (withWord_beBytes (width := 49) (a ++ f ++ q ++ BitVec.ofBool i) _ _ (by norm_num)).trans ?_
  rw [ha, hf, hq, hi]
  refine (withWord_byte (BitVec.ofNat 8 text.length) le_rfl (text ++ tail) _).trans ?_
  rw [ofNat8_length_toNat h, withBytes_append text tail _ rfl]

theorem decode_encode_validate (a : BitVec 32) (f q : BitVec 8) :
    decode .validate ((encode (.validate a f q)).2 ++ tail) = .ok (.validate a f q, tail) := by
  have ha : (a ++ f ++ q).extractLsb' 16 32 = a := extractLsb'_append3_left a f q
  have hf : (a ++ f ++ q).extractLsb' 8 8 = f := extractLsb'_append3_middle a f q
  have hq : (a ++ f ++ q).extractLsb' 0 8 = q := BitVec.extractLsb'_append_eq_right
  rw [encode, decode]
  refine (withWord_beBytes (width := 48) (a ++ f ++ q) _ _ (by norm_num)).trans ?_
  rw [ha, hf, hq]

theorem decode_encode_addrcw {a : BitVec 32} {f : BitVec 8} (ha : a.toNat < 0x200000) (hf : f.toNat < 4) :
    decode .addrcw ((encode (.addrcw a f)).2 ++ tail) = .ok (.addrcw a f, tail) := by
  have hA : ((a.setWidth 21 ++ f.setWidth 2).extractLsb' 2 21).setWidth 32 = a := by
    rw [BitVec.extractLsb'_append_eq_left]
    bv_omega
  have hF : ((a.setWidth 21 ++ f.setWidth 2).extractLsb' 0 2).setWidth 8 = f := by
    rw [BitVec.extractLsb'_append_eq_right]
    bv_omega
  rw [encode, decode]
  refine (withWord_beBytes (width := 23) (a.setWidth 21 ++ f.setWidth 2) _ _ (by norm_num)).trans ?_
  rw [hA, hF]

theorem decode_encode_place (k : BitVec 6) (v : Word) :
    decode .place ((encode (.place k v)).2 ++ tail) = .ok (.place k v, tail) := by
  rw [encode, decode]
  refine (withWord_beBytes (width := 38) (k ++ v) _ _ (by norm_num)).trans ?_
  rw [BitVec.extractLsb'_append_eq_left, BitVec.extractLsb'_append_eq_right]

theorem decode_encode_dispose (h : BitVec 5) (q : BitVec 8) :
    decode .dispose ((encode (.dispose h q)).2 ++ tail) = .ok (.dispose h q, tail) := by
  rw [encode, decode]
  refine (withWord_beBytes (width := 13) (h ++ q) _ _ (by norm_num)).trans ?_
  rw [BitVec.extractLsb'_append_eq_left, BitVec.extractLsb'_append_eq_right]

theorem decode_encode_assemble (aslot : BitVec 4) (acw : Word) {mcw : List Word} (h : mcw.length ≤ 15) :
    decode .assemble ((encode (.assemble aslot acw mcw)).2 ++ tail) = .ok (.assemble aslot acw mcw, tail) := by
  have hs : (aslot ++ BitVec.ofNat 4 mcw.length ++ acw).extractLsb' 36 4 = aslot :=
    extractLsb'_append3_left aslot (BitVec.ofNat 4 mcw.length) acw
  have hm : ((aslot ++ BitVec.ofNat 4 mcw.length ++ acw).extractLsb' 32 4).toNat = mcw.length := by
    rw [extractLsb'_append3_middle aslot (BitVec.ofNat 4 mcw.length) acw, BitVec.toNat_ofNat]; omega
  rw [encode, decode, List.append_assoc]
  refine (withWord_beBytes (width := 40) (aslot ++ BitVec.ofNat 4 mcw.length ++ acw) _ _ (by norm_num)).trans ?_
  rw [hm, hs, BitVec.extractLsb'_append_eq_right, withWords_append]

theorem decode_encode_msgenc {text : List Byte} (h : text.length ≤ 63) :
    decode .msgenc ((encode (.msgenc text)).2 ++ tail) = .ok (.msgenc text, tail) := by
  have hn : (BitVec.ofNat 6 text.length).toNat = text.length := by rw [BitVec.toNat_ofNat]; omega
  have hbyte : BitVec.ofNat 8 text.length = (BitVec.ofNat 6 text.length).setWidth 8 := by
    refine BitVec.eq_of_toNat_eq ?_
    rw [BitVec.toNat_setWidth, hn, BitVec.toNat_ofNat]
  rw [encode, decode, hbyte, List.cons_append, withWord_byte _ (by decide), hn, withBytes_append text tail _ rfl]

/-- The five character fields of a group that needs them (log 6). -/
theorem groupFields_eq {group : List Byte} (h : group.length ≤ 5) :
    groupFields group = group ++ List.replicate (5 - group.length) 0#8 := by
  rw [groupFields, List.take_of_length_le h]

theorem decode_encode_msgcw {group : List Byte} (h1 : 1 ≤ group.length) (h5 : group.length ≤ 5) :
    decode .msgcw ((encode (.msgcw group)).2 ++ tail) = .ok (.msgcw group, tail) := by
  have hcount : (BitVec.ofNat 8 (5 - group.length)).toNat = 5 - group.length := by rw [BitVec.toNat_ofNat]; omega
  have hfive : (groupFields group).length = 5 := by
    rw [groupFields_eq h5, List.length_append, List.length_replicate]; omega
  have hkept : 5 - (5 - group.length) = group.length := by omega
  rw [encode, decode, List.append_assoc, withBytes_append _ _ _ hfive]
  refine (withWord_byte (BitVec.ofNat 8 (5 - group.length)) le_rfl tail _).trans ?_
  rw [groupRow, hcount, if_neg (by omega), hkept, groupFields_eq h5, List.drop_left, List.take_left, if_pos (by simp)]

theorem decode_encode_invert (i : Bool) : decode .invert ((encode (.invert i)).2 ++ tail) = .ok (.invert i, tail) := by
  rw [encode, decode]
  refine (withWord_beBytes (BitVec.ofBool i) tail _ (by norm_num)).trans ?_
  cases i <;> rfl

end DecodeEncode

/-- Settles O2, row by row: an operation's word is read back field by field, a value row is the row of its own value. -/
theorem decodeOfEncodeIsTheInstruction : Obligations.DecodeOfEncodeIsTheInstruction := by
  intro i tail h
  cases i with
  | encode a f q i text => exact decode_encode_encode tail a f q i (of_decide_eq_true h)
  | validate a f q => exact decode_encode_validate tail a f q
  | truncate len => rw [encode, decode, withWord_beBytes len tail _ (by norm_num)]
  | bchchk v => rw [encode, decode, withWord_beBytes v tail _ (by norm_num), if_pos (of_decide_eq_true h)]
  | evenpar u => rw [encode, decode, withWord_beBytes u tail _ (by norm_num), if_pos (of_decide_eq_true h)]
  | bchenc v => rw [encode, decode, withWord_beBytes v tail _ (by norm_num), if_pos (of_decide_eq_true h)]
  | addrcw a f =>
    obtain ⟨ha, hf⟩ : a.toNat < 0x200000 ∧ f.toNat < 4 := by simpa [wellFormed] using h
    exact decode_encode_addrcw tail ha hf
  | charnib c => rw [encode, decode, withWord_beBytes c tail _ (by norm_num)]
  | rev4 x => rw [encode, decode, withWord_beBytes x tail _ (by norm_num)]
  | msgcw group =>
    obtain ⟨h1, h5⟩ : 1 ≤ group.length ∧ group.length ≤ 5 := by simpa [wellFormed] using h
    exact decode_encode_msgcw tail h1 h5
  | msgenc text => exact decode_encode_msgenc tail (of_decide_eq_true h)
  | batchinit => rw [encode, decode, withWord_beBytes Config.idle tail _ (by norm_num), if_pos rfl]
  | place k v => exact decode_encode_place tail k v
  | assemble aslot acw mcw => exact decode_encode_assemble tail aslot acw (of_decide_eq_true h)
  | dispose highest q => exact decode_encode_dispose tail highest q
  | invert i => exact decode_encode_invert tail i
  | serialize v => rw [encode, decode, withWord_beBytes v tail _ (by norm_num)]
  | cwAddr a f c p => rw [encode, decode_cw, codewordRow_addrBits (of_decide_eq_true h)]
  | cwMsg n0 n1 n2 n3 n4 c p => rw [encode, decode_cw, codewordRow_msgBits]
  | cwIdle => exact decode_cw tail Config.idle
  | cwIdleInverted => exact decode_cwInverted tail (~~~Config.idle)
  | cwAddrInverted a f c p => rw [encode, decode_cwInverted, codewordInvertedRow_addrBits (of_decide_eq_true h)]
  | cwMsgInverted n0 n1 n2 n3 n4 c p => rw [encode, decode_cwInverted, codewordInvertedRow_msgBits]
  | fcTimesync | fcDown | fcIllegal2 | fcUp => exact decode_fc8 tail _
  | fcIllegal4To255 v => exact (decode_fc8 tail v).trans (by rw [functionCodeRow_of_ge (of_decide_eq_true h)])
  | polTruncate | polCopybatch1 | polLeaveidle => exact decode_pol8 tail _
  | polIllegal3To255 v => exact (decode_pol8 tail v).trans (by rw [policyRow_of_ge (of_decide_eq_true h)])
  | stOk => exact decode_st2 tail 0#2
  | stInvalidAddress => exact decode_st2 tail 1#2
  | stInvalidFunctionCode => exact decode_st2 tail 2#2
  | stInvalidBatch2Policy => exact decode_st2 tail 3#2
  | batchcount1 => exact decode_bc2 tail 1#2
  | batchcount2 => exact decode_bc2 tail 2#2
  | invertFalse => exact decode_b1 tail 0#1
  | invertTrue => exact decode_b1 tail 1#1
  | sym0 | sym1 | sym2 | sym3 | sym4 | sym5 | sym6 | sym7 | sym8 | sym9 | symStar | symU | symSpace | symMinus
  | symLparen | symRparen => exact decode_char8 tail _
  | symDefault c => exact (decode_char8 tail c).trans (by rw [symbolRow_of_not_listed (by simpa [wellFormed] using h)])
  | nib0 => exact decode_nib4 tail 0x0#4
  | nib8 => exact decode_nib4 tail 0x8#4
  | nib4 => exact decode_nib4 tail 0x4#4
  | nibC => exact decode_nib4 tail 0xC#4
  | nib2 => exact decode_nib4 tail 0x2#4
  | nibA => exact decode_nib4 tail 0xA#4
  | nib6 => exact decode_nib4 tail 0x6#4
  | nibE => exact decode_nib4 tail 0xE#4
  | nib1 => exact decode_nib4 tail 0x1#4
  | nib9 => exact decode_nib4 tail 0x9#4
  | nib5 => exact decode_nib4 tail 0x5#4
  | nibD => exact decode_nib4 tail 0xD#4
  | nib3 => exact decode_nib4 tail 0x3#4
  | nibB => exact decode_nib4 tail 0xB#4
  | nib7 => exact decode_nib4 tail 0x7#4
  | nibF => exact decode_nib4 tail 0xF#4

/-- Settles O4: six of the words are what `encode` makes of the row they stand for, so they decode to it; the other
two carry a bit that no row has. -/
theorem wordsOfTheTableDecodeToTheirRows : Obligations.WordsOfTheTableDecodeToTheirRows := by
  have h := decodeOfEncodeIsTheInstruction
  refine ⟨?_, ?_, ?_, ?_, ?_, by decide +kernel, decode_bc2 [] 3#2, ?_⟩
  · exact h (.encode 0x12D450#32 3#8 0#8 false []) [] rfl
  · exact h (.addrcw 0x12D452#32 1#8) [] (by decide)
  · exact h .cwIdle [] rfl
  · exact h (.cwMsg 8#4 4#4 0xC#4 2#4 0xA#4 0x396#10 0#1) [] rfl
  · exact h (.place 16#6 0xD370CFDE#32) [] rfl
  · exact h (.fcIllegal4To255 5#8) [] rfl

end Sys2Proof
end

section
/-! SUPPORT. Encoding what was decoded, place by place (30_encoding.md R64). -/

namespace Sys2Proof

/-- Bytes that a well-formed instruction is encoded in, with a tail after them, are read exactly. -/
theorem exact_of_encode {i : Instr} {sel : Selector} {bs bytes : List Byte} {tail : List Byte}
    (hw : wellFormed i = true) (he : encode i = (sel, bs)) (hb : bytes = bs ++ tail) :
    wellFormed i = true ∧ (encode i).1 = sel ∧ bytes = (encode i).2 ++ tail := by
  rw [he]; exact ⟨hw, rfl, hb⟩

/-- The same for an answer whose row's value is known to be encoded so. -/
theorem exact_of_row {i row : Instr} {sel : Selector} {bs bytes tail rest : List Byte}
    (hrow : wellFormed row = true ∧ encode row = (sel, bs)) (hb : bytes = bs ++ rest)
    (hr : (Except.ok (row, rest) : DecodeResult) = .ok (i, tail)) :
    wellFormed i = true ∧ (encode i).1 = sel ∧ bytes = (encode i).2 ++ tail := by
  obtain ⟨hw, he⟩ := hrow
  cases hr
  exact exact_of_encode hw he hb

section EncodeDecode
variable {bytes tail : List Byte} {i : Instr}

theorem encode_decode_encode (h : decode .encode bytes = .ok (i, tail)) :
    wellFormed i = true ∧ (encode i).1 = .encode ∧ bytes = (encode i).2 ++ tail := by
  rw [decode] at h
  obtain ⟨v, r1, hb, h1⟩ := withWord_ok h
  obtain ⟨len, r2, rfl, h2⟩ := withWord_byte_ok le_rfl h1
  obtain ⟨text, r3, hlen, rfl, h3⟩ := withBytes_ok h2
  have hv : v.extractLsb' 17 32 ++ v.extractLsb' 9 8 ++ v.extractLsb' 1 8 ++ BitVec.ofBool (v.getLsbD 0) = v := by
    rw [ofBool_getLsbD_zero v,
      BitVec.extractLsb'_append_extractLsb'_eq_extractLsb' (start₂ := 17) (len₂ := 32) (by decide)]
    exact append3_extractLsb' (m := 32 + 8) (n := 8) (k := 1) v
  refine exact_of_row (bs := beBytes 7 v.toNat ++ (len :: text)) ⟨?_, ?_⟩ ?_ h3
  · have := len.isLt
    exact decide_eq_true (by omega)
  · rw [encode, hv, hlen, BitVec.ofNat_toNat, BitVec.setWidth_eq]
  · rw [hb, BitVec.setWidth_eq, List.append_assoc, List.cons_append]

theorem encode_decode_validate (h : decode .validate bytes = .ok (i, tail)) :
    wellFormed i = true ∧ (encode i).1 = .validate ∧ bytes = (encode i).2 ++ tail := by
  rw [decode] at h
  obtain ⟨v, rest, hb, h⟩ := withWord_ok h
  exact exact_of_row ⟨rfl, by rw [encode, append3_extractLsb' (m := 32) (n := 8) (k := 8) v]⟩ hb h

theorem encode_decode_addrcw (h : decode .addrcw bytes = .ok (i, tail)) :
    wellFormed i = true ∧ (encode i).1 = .addrcw ∧ bytes = (encode i).2 ++ tail := by
  rw [decode] at h
  obtain ⟨v, rest, hb, h⟩ := withWord_ok h
  refine exact_of_row ⟨?_, ?_⟩ hb h
  · have ha := (v.extractLsb' 2 21).isLt
    have hf := (v.extractLsb' 0 2).isLt
    simp only [wellFormed, BitVec.toNat_setWidth, Bool.and_eq_true, decide_eq_true_eq]
    omega
  · rw [encode, BitVec.setWidth_setWidth_of_le _ (by decide), BitVec.setWidth_setWidth_of_le _ (by decide),
      BitVec.setWidth_eq, BitVec.setWidth_eq, append_extractLsb' (m := 21) (k := 2) v]

theorem encode_decode_place (h : decode .place bytes = .ok (i, tail)) :
    wellFormed i = true ∧ (encode i).1 = .place ∧ bytes = (encode i).2 ++ tail := by
  rw [decode] at h
  obtain ⟨v, rest, hb, h⟩ := withWord_ok h
  exact exact_of_row ⟨rfl, by rw [encode, append_extractLsb' (m := 6) (k := 32) v]⟩ hb h

theorem encode_decode_dispose (h : decode .dispose bytes = .ok (i, tail)) :
    wellFormed i = true ∧ (encode i).1 = .dispose ∧ bytes = (encode i).2 ++ tail := by
  rw [decode] at h
  obtain ⟨v, rest, hb, h⟩ := withWord_ok h
  exact exact_of_row ⟨rfl, by rw [encode, append_extractLsb' (m := 5) (k := 8) v]⟩ hb h

theorem encode_decode_assemble (h : decode .assemble bytes = .ok (i, tail)) :
    wellFormed i = true ∧ (encode i).1 = .assemble ∧ bytes = (encode i).2 ++ tail := by
  rw [decode] at h
  obtain ⟨v, r1, hb, h1⟩ := withWord_ok h
  obtain ⟨mcw, r2, hlen, rfl, h2⟩ := withWords_ok h1
  refine exact_of_row (bs := beBytes 5 v.toNat ++ mcw.flatMap fun w => beBytes 4 w.toNat) ⟨?_, ?_⟩ ?_ h2
  · have := (v.extractLsb' 32 4).isLt
    exact decide_eq_true (by omega)
  · rw [encode, hlen, BitVec.ofNat_toNat, BitVec.setWidth_eq, append3_extractLsb' (m := 4) (n := 4) (k := 32) v]
  · rw [hb, List.append_assoc]

theorem encode_decode_msgenc (h : decode .msgenc bytes = .ok (i, tail)) :
    wellFormed i = true ∧ (encode i).1 = .msgenc ∧ bytes = (encode i).2 ++ tail := by
  rw [decode] at h
  obtain ⟨n, r1, hb, h1⟩ := withWord_byte_ok (by decide) h
  obtain ⟨text, r2, hlen, rfl, h2⟩ := withBytes_ok h1
  refine exact_of_row (bs := n.setWidth 8 :: text) ⟨?_, ?_⟩ hb h2
  · have := n.isLt
    exact decide_eq_true (by omega)
  · rw [encode, hlen, BitVec.ofNat_toNat]

/-- Absent characters that are all zero are the fill that encoding writes (log 6). -/
theorem groupFields_take {cs : List Byte} {k : Nat} (hk : k ≤ 5) (hcs : cs.length = 5)
    (hzero : (cs.drop k).all (· == 0#8) = true) : groupFields (cs.take k) = cs := by
  have hlen : (cs.take k).length = k := by rw [List.length_take]; omega
  have hfill : List.replicate (5 - k) 0#8 = cs.drop k := by
    refine (List.eq_replicate_iff.mpr ⟨by rw [List.length_drop, hcs], fun c hc => ?_⟩).symm
    exact eq_of_beq (List.all_eq_true.mp hzero c hc)
  rw [groupFields_eq (by omega), hlen, hfill, List.take_append_drop]

theorem encode_decode_msgcw (h : decode .msgcw bytes = .ok (i, tail)) :
    wellFormed i = true ∧ (encode i).1 = .msgcw ∧ bytes = (encode i).2 ++ tail := by
  rw [decode] at h
  obtain ⟨cs, r1, hcs, hb, h1⟩ := withBytes_ok h
  obtain ⟨absent, r2, rfl, h2⟩ := withWord_byte_ok le_rfl h1
  unfold groupRow at h2
  split_ifs at h2 with habsent hzero
  have hlen : (cs.take (5 - absent.toNat)).length = 5 - absent.toNat := by rw [List.length_take]; omega
  have hcount : 5 - (5 - absent.toNat) = absent.toNat := by omega
  refine exact_of_row (bs := cs ++ [absent]) ⟨?_, ?_⟩ ?_ h2
  · rw [wellFormed, hlen, Bool.and_eq_true, decide_eq_true_eq, decide_eq_true_eq]; omega
  · rw [encode, groupFields_take (by omega) hcs hzero, hlen, hcount, BitVec.ofNat_toNat, BitVec.setWidth_eq]
  · rw [hb, BitVec.setWidth_eq, List.append_assoc, List.singleton_append]

theorem encode_decode_invert (h : decode .invert bytes = .ok (i, tail)) :
    wellFormed i = true ∧ (encode i).1 = .invert ∧ bytes = (encode i).2 ++ tail := by
  rw [decode] at h
  obtain ⟨v, rest, hb, h⟩ := withWord_ok h
  exact exact_of_row ⟨rfl, by rw [encode, ofBool_getLsbD_zero, BitVec.extractLsb'_eq_self]⟩ hb h

theorem encode_decode_bc2 (h : decode .bc2 bytes = .ok (i, tail)) :
    wellFormed i = true ∧ (encode i).1 = .bc2 ∧ bytes = (encode i).2 ++ tail := by
  rw [decode] at h
  obtain ⟨v, rest, hb, h⟩ := withWord_byte_ok (by decide) h
  split_ifs at h with h1 h2
  · subst h1; exact exact_of_row ⟨rfl, rfl⟩ hb h
  · subst h2; exact exact_of_row ⟨rfl, rfl⟩ hb h

theorem invertRow_encode : ∀ v : BitVec 1,
    wellFormed (if v.getLsbD 0 then .invertTrue else .invertFalse) = true ∧
      encode (if v.getLsbD 0 then .invertTrue else .invertFalse) = (.b1, [v.setWidth 8]) := by decide

end EncodeDecode

/-- Settles O3, place by place: what was read is an operand word and the bytes apart after it, and the row answered is
encoded as exactly these. -/
theorem decodedBytesAreTheEncoding : Obligations.DecodedBytesAreTheEncoding := by
  intro sel bytes i tail h
  cases sel with
  | encode => exact encode_decode_encode h
  | validate => exact encode_decode_validate h
  | addrcw => exact encode_decode_addrcw h
  | msgcw => exact encode_decode_msgcw h
  | msgenc => exact encode_decode_msgenc h
  | place => exact encode_decode_place h
  | assemble => exact encode_decode_assemble h
  | dispose => exact encode_decode_dispose h
  | invert => exact encode_decode_invert h
  | bc2 => exact encode_decode_bc2 h
  | truncate | charnib | rev4 | serialize =>
    rw [decode] at h
    obtain ⟨v, rest, hb, h⟩ := withWord_ok h
    exact exact_of_row ⟨rfl, rfl⟩ hb h
  | bchchk | evenpar | bchenc =>
    rw [decode] at h
    obtain ⟨v, rest, hb, h⟩ := withWord_ok h
    split_ifs at h with hclear
    refine exact_of_row ⟨?_, rfl⟩ hb h
    exact decide_eq_true hclear
  | batchinit =>
    rw [decode] at h
    obtain ⟨v, rest, hb, h⟩ := withWord_ok h
    split_ifs at h with hidle
    subst hidle
    exact exact_of_row ⟨rfl, rfl⟩ hb h
  | cw =>
    rw [decode] at h
    obtain ⟨w, rest, hb, h⟩ := withWord_ok h
    exact exact_of_row (codewordRow_encode w) hb h
  | cwInverted =>
    rw [decode] at h
    obtain ⟨w, rest, hb, h⟩ := withWord_ok h
    exact exact_of_row (codewordInvertedRow_encode w) hb h
  | fc8 =>
    rw [decode] at h
    obtain ⟨v, rest, hb, h⟩ := withWord_byte_ok le_rfl h
    exact exact_of_row (functionCodeRow_encode v) (by rw [hb, BitVec.setWidth_eq]; rfl) h
  | pol8 =>
    rw [decode] at h
    obtain ⟨v, rest, hb, h⟩ := withWord_byte_ok le_rfl h
    exact exact_of_row (policyRow_encode v) (by rw [hb, BitVec.setWidth_eq]; rfl) h
  | char8 =>
    rw [decode] at h
    obtain ⟨c, rest, hb, h⟩ := withWord_byte_ok le_rfl h
    exact exact_of_row (symbolRow_encode c) (by rw [hb, BitVec.setWidth_eq]; rfl) h
  | st2 =>
    rw [decode] at h
    obtain ⟨v, rest, hb, h⟩ := withWord_byte_ok (by decide) h
    exact exact_of_row (statusRow_encode v) hb h
  | nib4 =>
    rw [decode] at h
    obtain ⟨x, rest, hb, h⟩ := withWord_byte_ok (by decide) h
    exact exact_of_row (nibbleRow_encode x) hb h
  | b1 =>
    rw [decode] at h
    obtain ⟨v, rest, hb, h⟩ := withWord_byte_ok (by decide) h
    exact exact_of_row (invertRow_encode v) hb h

end Sys2Proof
end

section
/-! SUPPORT. The units that have a contract: what each answers inside it, and under which name it is refused outside
(41_bch_encoder.md R87, 42_address_codeword.md R96, 43_message_encoder.md R104 and R108, 44_batch_assembler.md R125). -/

namespace Sys2Proof.Machine

variable (s : State)

theorem exec_bchchk {v : Word} (h : lowBitsClear v = true) :
    exec (.bchchk v) s =
      .next { s with work := { s.work with w := bchWork v, chk := bchChk v }, result := .word (bchchk v) } :=
  if_pos h

theorem exec_bchchk_refused {v : Word} (h : lowBitsClear v = false) :
    exec (.bchchk v) s = .refused .bchOperandLowBits :=
  if_neg (Bool.eq_false_iff.mp h)

theorem exec_bchenc {v : Word} (h : lowBitsClear v = true) :
    exec (.bchenc v) s =
      .next { s with work := { s.work with w := bchWork v, chk := bchChk v }, result := .word (bchenc v) } :=
  if_pos h

theorem exec_bchenc_refused {v : Word} (h : lowBitsClear v = false) :
    exec (.bchenc v) s = .refused .bchOperandLowBits :=
  if_neg (Bool.eq_false_iff.mp h)

theorem exec_evenpar_refused {u : Word} (h : u.getLsbD 0 = true) : exec (.evenpar u) s = .refused .parityBitSet :=
  if_pos h

theorem exec_addrcw {a : BitVec 32} {f : BitVec 8} (h : (legalAddress a && legalFunctionCode f) = true) :
    exec (.addrcw a f) s =
      .next { s with work :=
        { s.work with frame := addressFrame a, aslot := addressSlot a, acw := addressCodeword a f } } :=
  if_pos h

theorem exec_addrcw_refused {a : BitVec 32} {f : BitVec 8} (h : (legalAddress a && legalFunctionCode f) = false) :
    exec (.addrcw a f) s = .refused .addressNotValidated :=
  if_neg (Bool.eq_false_iff.mp h)

theorem exec_msgcw {group : List Byte} (h : 1 ≤ group.length ∧ group.length ≤ 5) :
    exec (.msgcw group) s = .next { s with result := .word (messageCodeword group) } :=
  if_pos h

theorem exec_msgcw_refused {group : List Byte} (h : ¬ (1 ≤ group.length ∧ group.length ≤ 5)) :
    exec (.msgcw group) s = .refused .groupLength :=
  if_neg h

theorem exec_msgenc {text : List Byte} (h : text.length ≤ 40) :
    exec (.msgenc text) s =
      .next { s with work := { s.work with m := codewordCount text.length, mcw := messageCodewords text } } :=
  if_pos h

theorem exec_msgenc_refused {text : List Byte} (h : ¬ text.length ≤ 40) :
    exec (.msgenc text) s = .refused .textNotTruncated :=
  if_neg h

theorem exec_dispose {highest : BitVec 5} {q : BitVec 8} (h : (decide (16 ≤ highest.toNat) || legalPolicy q) = true) :
    exec (.dispose highest q) s =
      .next { s with work :=
        { s.work with
          count := (disposeSlots highest.toNat q s.work.slots).1
          slots := (disposeSlots highest.toNat q s.work.slots).2 } } :=
  if_pos h

theorem exec_dispose_refused {highest : BitVec 5} {q : BitVec 8}
    (h : (decide (16 ≤ highest.toNat) || legalPolicy q) = false) :
    exec (.dispose highest q) s = .refused .policyNotValidated :=
  if_neg (Bool.eq_false_iff.mp h)

theorem exec_encode_refused {a : BitVec 32} {f q : BitVec 8} {v : Bool} {text : List Byte}
    (h : ¬ text.length ≤ Config.textLenMax) : exec (.encode a f q v text) s = .refused .textLenAboveMax :=
  if_neg h

end Sys2Proof.Machine
end
section
/-! SUPPORT. What an instruction other than ENCODE can do, said once: inside its contract it is the host's write of one
field of REQ, or it writes call-scoped values of its own and the answer record; outside it is refused (10_state.md R22,
R28; log 8, 13). -/

namespace Sys2Proof.Machine

/-- What an instruction other than ENCODE answers from a state. -/
inductive Effect (i : Instr) (s : State) : Answer → Prop where
  /-- The host's write of one field of REQ; the address, the length and the text are not such fields. -/
  | write (t : State) (hcontract : inContract i = true) (hkind : writesRequest i = true)
      (haddress : t.req.address = s.req.address) (hlen : t.req.textLen = s.req.textLen) (htext : t.req.text = s.req.text)
      (hrsp : t.rsp = s.rsp) (hwork : t.work = s.work) (hresult : t.result = s.result)
      (hpending : t.pending = s.pending) : Effect i s (.next t)
  /-- A computation on the call-scoped values the unit is listed for, or an answer in the model's own record. -/
  | compute (t : State) (hcontract : inContract i = true) (hkind : writesRequest i = false)
      (hreq : t.req = s.req) (hrsp : t.rsp = s.rsp) (hpending : t.pending = s.pending)
      (hframe : ∀ f, f ∉ unitWrites i → sameWorkField f t.work s.work) : Effect i s (.next t)
  /-- A refusal, outside the contract only. -/
  | refuse (why : Refusal) (hcontract : inContract i = false) : Effect i s (.refused why)

theorem sameWorkField_refl (f : WorkField) (w : Work) : sameWorkField f w w := by
  cases f <;> rfl

/-- An instruction that only answers in the model's own record. -/
theorem Effect.answer {i : Instr} {s : State} (r : Result) (hcontract : inContract i = true)
    (hkind : writesRequest i = false) : Effect i s (.next (s.setResult r)) :=
  .compute _ hcontract hkind rfl rfl rfl fun f _ => sameWorkField_refl f s.work

/-- A unit that only writes call-scoped values; that they are its own is checked value by value. -/
theorem Effect.unit {i : Instr} {s : State} (t : State) (hcontract : inContract i = true)
    (hkind : writesRequest i = false) (hreq : t.req = s.req) (hrsp : t.rsp = s.rsp) (hpending : t.pending = s.pending)
    (hframe : ∀ f, f ∉ unitWrites i → sameWorkField f t.work s.work := by
      intro f hf; cases f <;> simp_all [unitWrites, sameWorkField]) : Effect i s (.next t) :=
  .compute t hcontract hkind hreq hrsp hpending hframe

/-- Every instruction but ENCODE has such an effect. -/
theorem exec_effect (i : Instr) (s : State) (h : startsTransaction i = false) : Effect i s (exec i s) := by
  cases i with
  | encode => cases h
  | bchchk v =>
    cases hv : lowBitsClear v
    · rw [exec_bchchk_refused s hv]; exact .refuse _ hv
    · rw [exec_bchchk s hv]; exact .unit _ hv rfl rfl rfl rfl
  | bchenc v =>
    cases hv : lowBitsClear v
    · rw [exec_bchenc_refused s hv]; exact .refuse _ hv
    · rw [exec_bchenc s hv]; exact .unit _ hv rfl rfl rfl rfl
  | evenpar u =>
    cases hu : u.getLsbD 0
    · rw [exec_evenpar hu s]; exact .answer _ (by rw [inContract, hu]; rfl) rfl
    · rw [exec_evenpar_refused s hu]; exact .refuse _ (by rw [inContract, hu]; rfl)
  | addrcw a f =>
    cases hc : legalAddress a && legalFunctionCode f
    · rw [exec_addrcw_refused s hc]; exact .refuse _ hc
    · rw [exec_addrcw s hc]; exact .unit _ hc rfl rfl rfl rfl
  | msgcw group =>
    by_cases hg : 1 ≤ group.length ∧ group.length ≤ 5
    · rw [exec_msgcw s hg]; exact .answer _ (by simpa [inContract] using hg) rfl
    · rw [exec_msgcw_refused s hg]; exact .refuse _ (by simpa [inContract] using hg)
  | msgenc text =>
    by_cases ht : text.length ≤ 40
    · rw [exec_msgenc s ht]; exact .unit _ (decide_eq_true ht) rfl rfl rfl rfl
    · rw [exec_msgenc_refused s ht]; exact .refuse _ (decide_eq_false ht)
  | dispose highest q =>
    cases hc : decide (16 ≤ highest.toNat) || legalPolicy q
    · rw [exec_dispose_refused s hc]; exact .refuse _ hc
    · rw [exec_dispose s hc]; exact .unit _ hc rfl rfl rfl rfl
  | truncate | batchinit | place | assemble | invert =>
    exact .unit _ rfl rfl rfl rfl rfl
  | fcTimesync | fcDown | fcIllegal2 | fcUp | fcIllegal4To255 | polTruncate | polCopybatch1 | polLeaveidle
  | polIllegal3To255 | invertFalse | invertTrue => exact .write _ rfl rfl rfl rfl rfl rfl rfl rfl rfl
  | validate | charnib | rev4 | serialize | cwAddr | cwMsg | cwIdle | cwIdleInverted | cwAddrInverted | cwMsgInverted
  | stOk | stInvalidAddress | stInvalidFunctionCode | stInvalidBatch2Policy | batchcount1 | batchcount2
  | sym0 | sym1 | sym2 | sym3 | sym4 | sym5 | sym6 | sym7 | sym8 | sym9 | symStar | symU | symSpace | symMinus
  | symLparen | symRparen | symDefault
  | nib0 | nib8 | nib4 | nibC | nib2 | nibA | nib6 | nibE | nib1 | nib9 | nib5 | nibD | nib3 | nibB | nib7 | nibF =>
    exact .answer _ rfl rfl

end Sys2Proof.Machine
end

section
/-! SUPPORT. The statements about every instruction: its frame, the call-scoped values it may write, when it completes
and under which name it is refused (10_state.md R17, R22, R23, R28; 60_exceptions.md R164; 92_eei_decisions.md D22). -/

namespace Sys2Proof.Machine

theorem exists_encode_of_startsTransaction {i : Instr} (h : startsTransaction i = true) :
    ∃ a f q v text, i = .encode a f q v text := by
  cases i with
  | encode a f q v text => exact ⟨a, f, q, v, text, rfl⟩
  | _ => cases h

/-- Settles O5: ENCODE's next state is the transaction's, which keeps the script and the answer record; every other
instruction has one of the two effects. -/
theorem onlyEncodeChangesTheResponse : Obligations.OnlyEncodeChangesTheResponse := by
  intro i s t ht
  cases hi : startsTransaction i with
  | true =>
    obtain ⟨a, f, q, v, text, rfl⟩ := exists_encode_of_startsTransaction hi
    obtain ⟨-, rfl⟩ := execEncode_next ht
    rw [transactionOn_eq]
    refine ⟨rfl, ?_, ?_, ?_⟩ <;> intro h <;> cases h
  | false =>
    have heffect := exec_effect i s hi
    rw [ht] at heffect
    cases heffect with
    | write _ _ hkind haddress hlen htext hrsp hwork hresult hpending =>
      refine ⟨hpending, fun _ => ⟨hrsp, haddress, hlen, fun a => by rw [htext]⟩, fun _ hno => ?_, fun _ => ⟨hwork, hresult⟩⟩
      rw [hkind] at hno; cases hno
    | compute _ _ hkind hreq hrsp hpending =>
      refine ⟨hpending, fun _ => ?_, fun _ _ => hreq, fun hyes => ?_⟩
      · rw [hreq]; exact ⟨hrsp, rfl, rfl, fun _ => rfl⟩
      · rw [hkind] at hyes; cases hyes

/-- Settles O6: a write of REQ leaves all call-scoped values, a computation those that are not its own. -/
theorem unitsWriteOnlyTheirOwnValues : Obligations.UnitsWriteOnlyTheirOwnValues := by
  intro i s t f ht hi hf
  have heffect := exec_effect i s hi
  rw [ht] at heffect
  cases heffect with
  | write _ _ _ _ _ _ _ hwork => rw [hwork]; exact sameWorkField_refl f s.work
  | compute _ _ _ _ _ _ hframe => exact hframe f hf

/-- Settles O7: ENCODE's contract is the length of the text; every other instruction has a next state in its effect
exactly inside its contract. -/
theorem instructionsCompleteExactlyInContract : Obligations.InstructionsCompleteExactlyInContract := by
  intro i s
  cases hi : startsTransaction i with
  | true =>
    obtain ⟨a, f, q, v, text, rfl⟩ := exists_encode_of_startsTransaction hi
    exact ⟨fun h => ⟨_, execEncode_eq a f q v text s (of_decide_eq_true h)⟩,
      fun h => ⟨_, exec_encode_refused s (of_decide_eq_false h)⟩⟩
  | false =>
    have heffect := exec_effect i s hi
    generalize exec i s = answer at heffect ⊢
    cases heffect with
    | write t hcontract | compute t hcontract =>
      exact ⟨fun _ => ⟨t, rfl⟩, fun h => absurd h (by rw [hcontract]; decide)⟩
    | refuse why hcontract => exact ⟨fun h => absurd h (by rw [hcontract]; decide), fun _ => ⟨why, rfl⟩⟩

theorem lowBitsClear_eq_true_iff (v : Word) : lowBitsClear v = true ↔ v &&& 0x7FF#32 = 0#32 :=
  decide_eq_true_iff

/-- Settles O8: one refusal per unit, its condition read as the contract's; the two builders' operands have the low
bits clear whatever they are built from. -/
theorem operandsOutsideContractAreRefused : Obligations.OperandsOutsideContractAreRefused := by
  refine ⟨fun v s h => ?_, fun u s h => exec_evenpar_refused s h, fun a f s h => exec_addrcw_refused s ?_,
    fun group s h => exec_msgcw_refused s ?_, fun text s h => exec_msgenc_refused s (Nat.not_le.mpr h),
    fun highest q s hlow hq => exec_dispose_refused s ?_,
    fun a f => (lowBitsClear_eq_true_iff _).mp (addressOperand_clear a f),
    fun group => (lowBitsClear_eq_true_iff _).mp (groupOperand_clear group)⟩
  · have hlow : lowBitsClear v = false := decide_eq_false h
    exact ⟨exec_bchchk_refused s hlow, exec_bchenc_refused s hlow⟩
  · rw [Bool.eq_false_iff, ne_eq, Bool.and_eq_true, legalAddress_iff, legalFunctionCode_iff]
    rintro ⟨⟨h1, hmax⟩, hf⟩
    rcases h with h | h | h
    · omega
    · omega
    · exact h hf
  · rintro ⟨h1, h5⟩
    rcases h with rfl | h
    · cases h1
    · omega
  · rw [Bool.eq_false_iff, ne_eq, Bool.or_eq_true, decide_eq_true_iff, legalPolicy_iff]
    omega

end Sys2Proof.Machine
end

section
/-! SUPPORT. One step and a run: a port action runs at the port, an issued row is exec of the instruction it decodes to
(log 4, 8), and what a run of instructions inside their contracts does (60_exceptions.md R164). -/

namespace Sys2Proof.Machine

variable {s : State} {rest : List HostAction}

theorem step_of_pending_nil (h : s.pending = []) : step s = .next s := by
  rw [step, h]

theorem step_port {a : PortAction} (h : s.pending = .port a :: rest) : step s = runPort a (s.setPending rest) := by
  rw [step, h]

theorem step_issue {sel : Selector} {bytes tail : List Byte} {i : Instr} (h : s.pending = .issue sel bytes :: rest)
    (hd : decode sel bytes = .ok (i, tail)) : step s = exec i (s.setPending rest) := by
  simp only [step, h, fetchInstr, hd]

theorem step_issue_undecodable {sel : Selector} {bytes : List Byte} {why : DecodeError}
    (h : s.pending = .issue sel bytes :: rest) (hd : decode sel bytes = .error why) :
    step s = .refused (.undecodable why) := by
  simp only [step, h, fetchInstr, hd]

/-- Settles O1: the three cases of a step that concern no port action. -/
theorem stepRunsTheIssuedInstruction : Obligations.StepRunsTheIssuedInstruction :=
  ⟨fun _ _ _ _ _ _ h hd => step_issue h hd, fun _ _ _ _ _ h hd => step_issue_undecodable h hd,
    fun _ h => step_of_pending_nil h⟩

/-- No instruction touches the host's script (R14). -/
theorem exec_pending {i : Instr} {s t : State} (h : exec i s = .next t) : t.pending = s.pending :=
  (onlyEncodeChangesTheResponse i s t h).1

/-- Settles O11, by induction on the number of steps: the first entry decodes to an instruction inside its contract, so
the step answers a next state, which holds the rest of the script. -/
theorem scriptsInContractNeverStop : Obligations.ScriptsInContractNeverStop := by
  intro s k
  induction k generalizing s with
  | zero => exact fun _ => rfl
  | succ k ih =>
    intro hscript
    cases hp : s.pending with
    | nil =>
      rw [safeRun, run_of_step (step_of_pending_nil hp)]
      exact ih s hscript
    | cons a rest =>
      rw [hp] at hscript
      obtain ⟨sel, bytes, i, tail, rfl, hd, hc⟩ := hscript a List.mem_cons_self
      obtain ⟨t, ht⟩ := (instructionsCompleteExactlyInContract i (s.setPending rest)).1 hc
      have hstep : step s = .next t := (step_issue hp hd).trans ht
      rw [safeRun, run_of_step hstep]
      refine ih t fun b hb => hscript b (List.mem_cons_of_mem _ ?_)
      rwa [exec_pending ht] at hb

end Sys2Proof.Machine
end

section
/-! SUPPORT. The host at the port: its writes of REQ, and its reads of RSP under each tag (10_state.md R11 to R19, R23;
20_memory.md R35 to R38; 70_reset_and_hazards.md R180). -/

namespace Sys2Proof.Machine

section Reads
variable {s t : State}

/-- A read that is answered changes nothing but the model's own record (R38). -/
theorem answerRead_next {r : Option Result} (h : answerRead r s = .next t) : ∃ x, r = some x ∧ t = s.setResult x := by
  cases r with
  | none => cases h
  | some x => cases h; exact ⟨x, rfl, rfl⟩

theorem runPort_readValid (s : State) : runPort .readValid s = .next { s with result := .valid (validBit s.rsp) } := rfl

theorem runPort_readStatus {v : Verdict} (h : statusOf s.rsp = some v) :
    runPort .readStatus s = .next { s with result := .status v } := by
  simp only [runPort, h, Option.map_some, answerRead, State.setResult]

theorem runPort_readStatus_not_carried (h : statusOf s.rsp = none) :
    runPort .readStatus s = .refused .fieldNotCarried := by
  simp only [runPort, h, Option.map_none, answerRead]

theorem runPort_readBatchCount {c : BatchCount} (h : batchCountOf s.rsp = some c) :
    runPort .readBatchCount s = .next { s with result := .batchCount c } := by
  simp only [runPort, h, Option.map_some, answerRead, State.setResult]

theorem runPort_readBatchCount_not_carried (h : batchCountOf s.rsp = none) :
    runPort .readBatchCount s = .refused .fieldNotCarried := by
  simp only [runPort, h, Option.map_none, answerRead]

theorem readWord_next {b : BatchSel} {i : Nat} (h : readWord b i s = .next t) : ∃ x, t = s.setResult x := by
  unfold readWord at h
  split at h
  · cases h
  · split at h
    · cases h; exact ⟨_, rfl⟩
    · cases h

theorem readBytes_next {b : BatchSel} {a n : Nat} (h : readBytes b a n s = .next t) : ∃ x, t = s.setResult x := by
  unfold readBytes at h
  split at h
  · cases h
  · split at h
    · cases h; exact ⟨_, rfl⟩
    · cases h

/-- Under a tag without batches no word can be read (R17). -/
theorem readWord_not_carried {b : BatchSel} (i : Nat) (h : batchOf s.rsp b = none) :
    readWord b i s = .refused .fieldNotCarried := by
  rw [readWord, h]

theorem readBytes_not_carried {b : BatchSel} (a n : Nat) (h : batchOf s.rsp b = none) :
    readBytes b a n s = .refused .fieldNotCarried := by
  rw [readBytes, h]

theorem readWord_within {b : BatchSel} {batch : Batch} {i : Nat} (h : batchOf s.rsp b = some batch) (hi : i < 16) :
    readWord b i s = .next { s with result := .word batch[i] } := by
  simp only [readWord, h, dif_pos hi, State.setResult]

theorem readWord_outside {b : BatchSel} {batch : Batch} {i : Nat} (h : batchOf s.rsp b = some batch) (hi : 16 ≤ i) :
    readWord b i s = .refused .outsideView := by
  simp only [readWord, h, dif_neg (Nat.not_lt.mpr hi)]

end Reads

/-- Settles O16: the tag decides what each view of RSP holds. -/
theorem responseIsReadUnderItsTag : Obligations.ResponseIsReadUnderItsTag := by
  refine ⟨fun s h => ?_, fun s c b1 b2 h => ?_, fun s k h => ?_⟩
  · have hnone : ∀ b, batchOf s.rsp b = none := fun b => by rw [h]; rfl
    refine ⟨?_, runPort_readStatus_not_carried (by rw [h]; rfl), runPort_readBatchCount_not_carried (by rw [h]; rfl),
      fun b i => readWord_not_carried i (hnone b), fun b a n => readBytes_not_carried a n (hnone b)⟩
    rw [runPort_readValid, h, validBit]
  · have h1 : batchOf s.rsp .first = some b1 := by rw [h]; rfl
    have h2 : batchOf s.rsp .second = some b2 := by rw [h]; rfl
    refine ⟨?_, runPort_readStatus (by rw [h]; rfl), runPort_readBatchCount (by rw [h]; rfl),
      fun i hi => ⟨readWord_within h1 hi, readWord_within h2 hi⟩, fun b i hi => ?_⟩
    · rw [runPort_readValid, h, validBit]
    · cases b
      · exact readWord_outside h1 hi
      · exact readWord_outside h2 hi
  · have hnone : ∀ b, batchOf s.rsp b = none := fun b => by rw [h]; rfl
    refine ⟨?_, runPort_readStatus (by rw [h]; rfl), runPort_readBatchCount_not_carried (by rw [h]; rfl),
      fun b i => readWord_not_carried i (hnone b), fun b a n => readBytes_not_carried a n (hnone b)⟩
    rw [runPort_readValid, h, validBit]

/-- A read leaves a state that differs in the model's own record only, which no read looks at (R38). -/
theorem runPort_read_again {a : PortAction} {s t : State} {r : Result} (ht : t = s.setResult r)
    (hread : ∀ x, runPort a (s.setResult x) = runPort a s) (h : runPort a s = .next t) :
    t = { s with result := t.result } ∧ runPort a t = .next t := by
  subst ht
  exact ⟨rfl, (hread r).trans h⟩

/-- Settles O18: every kind of read answers in the record and does not look at it. -/
theorem readsChangeNothingOfTheBlock : Obligations.ReadsChangeNothingOfTheBlock := by
  intro a s t ha h
  rcases ha with rfl | rfl | rfl | ⟨b, i, rfl⟩ | ⟨b, k, n, rfl⟩
  · rw [runPort_readValid] at h
    cases h
    exact ⟨rfl, rfl⟩
  · obtain ⟨x, -, ht⟩ := answerRead_next h
    exact runPort_read_again ht (fun _ => rfl) h
  · obtain ⟨x, -, ht⟩ := answerRead_next h
    exact runPort_read_again ht (fun _ => rfl) h
  · obtain ⟨x, ht⟩ := readWord_next h
    exact runPort_read_again ht (fun _ => rfl) h
  · obtain ⟨x, ht⟩ := readBytes_next h
    exact runPort_read_again ht (fun _ => rfl) h

/-- Settles O13: each write is a step at the port on its own field; the text after a write of one character is read by
the law of TEXT. -/
theorem hostWritesReachTheirField : Obligations.HostWritesReachTheirField := by
  intro s rest
  refine ⟨fun v h => step_port h, fun v h => step_port h, fun v h => step_port h, fun v h => step_port h,
    fun v h => step_port h, fun k c h hk => ?_, fun k c h hk => ?_⟩
  · exact ⟨Memory.write s.req.text k c, (step_port h).trans (if_pos hk), read_write s.req.text k c⟩
  · exact (step_port h).trans (if_neg (Nat.not_lt.mpr hk))

/-- Settles O12: reset is one constant state but for the script, its RSP is Idle, and its REQ lacks every field. -/
theorem resetLeavesNoRequestAndNoResponse : Obligations.ResetLeavesNoRequestAndNoResponse := by
  obtain ⟨hvalid, hstatus, hcount, hword, hbytes⟩ := responseIsReadUnderItsTag.1 State.reset rfl
  exact ⟨rfl, rfl, rfl, fun s rest h => step_port h, hvalid, hstatus, hcount, hword, hbytes, rfl⟩

end Sys2Proof.Machine
end

section
/-! SUPPORT. When a start finds a complete request and what it runs (46_encode_transaction.md R151), and when two texts
are one (20_memory.md R31). -/

namespace Sys2Proof.Machine

/-- A request is complete as q exactly when every field of REQ holds q's and the characters are there in order. -/
theorem readRequest_eq_ok {r : Req} {q : Request} :
    readRequest r = .ok q ↔
      r.address = some q.address ∧ r.functionCode = some q.functionCode ∧ r.batch2Policy = some q.batch2Policy ∧
      r.invertPhase = some q.invertPhase ∧ r.textLen = some q.text.length ∧ q.text.length ≤ Config.textLenMax ∧
      ∀ k < q.text.length, Memory.read r.text k = q.text[k]? := by
  constructor
  · intro h
    unfold readRequest at h
    split at h
    next a f p i len ha hf hp hi hlen =>
      split_ifs at h with hmax
      split at h
      next text htext =>
        cases h
        obtain ⟨rfl, hread⟩ := readText_eq_some.mp htext
        exact ⟨ha, hf, hp, hi, hlen, hmax, fun k hk => by rw [← hread k hk, Nat.zero_add]⟩
      next => cases h
    next => cases h
  · rintro ⟨ha, hf, hp, hi, hlen, hmax, hread⟩
    have htext : Memory.readText r.text 0 q.text.length = some q.text :=
      readText_eq_some.mpr ⟨rfl, fun k hk => by rw [Nat.zero_add, hread k hk]⟩
    simp only [readRequest, ha, hf, hp, hi, hlen, if_pos hmax, htext]

/-- A request is incomplete for one of two reasons (R151). -/
theorem readRequest_error {r : Req} {why : Refusal} (h : readRequest r = .error why) :
    why = .requestUnwritten ∨ why = .textLenAboveMax := by
  unfold readRequest at h
  split at h
  · split_ifs at h
    · split at h
      · cases h
      · cases h; exact .inl rfl
    · cases h; exact .inr rfl
  · cases h; exact .inl rfl

/-- What R151 asks of REQ before a start. -/
def Req.complete (r : Req) : Prop :=
  r.address.isSome = true ∧ r.functionCode.isSome = true ∧ r.batch2Policy.isSome = true ∧ r.invertPhase.isSome = true ∧
    ∃ len, r.textLen = some len ∧ len ≤ Config.textLenMax ∧ ∀ i < len, (Memory.read r.text i).isSome = true

theorem exists_readRequest_iff (r : Req) : (∃ q, readRequest r = .ok q) ↔ r.complete := by
  constructor
  · rintro ⟨q, h⟩
    obtain ⟨ha, hf, hp, hi, hlen, hmax, hread⟩ := readRequest_eq_ok.mp h
    refine ⟨by rw [ha]; rfl, by rw [hf]; rfl, by rw [hp]; rfl, by rw [hi]; rfl, _, hlen, hmax, fun k hk => ?_⟩
    rw [hread k hk, List.getElem?_eq_getElem hk, Option.isSome_some]
  · rintro ⟨ha, hf, hp, hi, len, hlen, hmax, hread⟩
    obtain ⟨a, ha⟩ := Option.isSome_iff_exists.mp ha
    obtain ⟨f, hf⟩ := Option.isSome_iff_exists.mp hf
    obtain ⟨p, hp⟩ := Option.isSome_iff_exists.mp hp
    obtain ⟨i, hi⟩ := Option.isSome_iff_exists.mp hi
    obtain ⟨text, htext⟩ := Option.isSome_iff_exists.mp
      ((readText_isSome r.text len 0).mpr fun k hk => by rw [Nat.zero_add]; exact hread k hk)
    obtain ⟨rfl, hread⟩ := readText_eq_some.mp htext
    exact ⟨⟨a, f, p, i, text⟩, readRequest_eq_ok.mpr
      ⟨ha, hf, hp, hi, hlen, hmax, fun k hk => by rw [← hread k hk, Nat.zero_add]⟩⟩

theorem startTransaction_of_error {s : State} {why : Refusal} (h : readRequest s.req = .error why) :
    startTransaction s = .refused why := by
  rw [startTransaction, h]

/-- Settles O14: a start answers a next state exactly through a complete request, and a request that is not complete
is refused for one of two reasons. -/
theorem startNeedsACompleteRequest : Obligations.StartNeedsACompleteRequest := by
  intro s rest hp
  have hstep : step s = startTransaction (s.setPending rest) := step_port hp
  rw [hstep]
  constructor
  · refine Iff.trans ⟨?_, ?_⟩ (exists_readRequest_iff s.req)
    · rintro ⟨t, ht⟩
      obtain ⟨q, hq, -⟩ := startTransaction_next ht
      exact ⟨q, hq⟩
    · rintro ⟨q, hq⟩
      exact ⟨_, startTransaction_of_ok hq⟩
  · cases h : readRequest s.req with
    | ok q => exact .inl ⟨_, startTransaction_of_ok h⟩
    | error why =>
      have hrefused : startTransaction (s.setPending rest) = .refused why := startTransaction_of_error h
      rw [hrefused]
      rcases readRequest_error h with rfl | rfl
      · exact .inr (.inl rfl)
      · exact .inr (.inr rfl)

/-- Settles O15: REQ is read as the call's arguments, and a response is a function of the request alone. -/
theorem startRunsTheWrittenRequest : Obligations.StartRunsTheWrittenRequest := by
  intro s s' a f q v text ha hf hq hv hlen hmax hread
  have hreq : readRequest s.req = .ok ⟨a, f, q, v, text⟩ :=
    readRequest_eq_ok.mpr ⟨ha, hf, hq, hv, hlen, hmax, hread⟩
  exact ⟨_, _, startTransaction_of_ok hreq, execEncode_eq a f q v text s' hmax, transactionOn_rsp s _ _,
    transactionOn_eq s _⟩

/-- In a canonical text nothing stands below its first index. -/
theorem read_eq_none_of_lt_head {mem : Memory} {i : Nat} (hwf : Memory.wf mem = true)
    (hi : ∀ cell ∈ mem.head?, i < cell.1) : Memory.read mem i = none := by
  induction mem with
  | nil => rfl
  | cons cell rest ih =>
    obtain ⟨a, b⟩ := cell
    obtain ⟨hrest, hhead⟩ := (wf_cons a b rest).mp hwf
    have hia : i < a := hi (a, b) rfl
    rw [Memory.read, if_neg (by omega)]
    exact ih hrest fun cell hcell => hia.trans (hhead cell hcell)

theorem read_cons_self (a : Nat) (b : Byte) (rest : Memory) : Memory.read ((a, b) :: rest) a = some b :=
  if_pos rfl

/-- The first index of a canonical text that reads as m2 does is not below the first of m2. -/
theorem head_le_of_read_eq {a a' : Nat} {b b' : Byte} {rest rest' : Memory} (hwf : Memory.wf ((a', b') :: rest') = true)
    (h : ∀ i, Memory.read ((a, b) :: rest) i = Memory.read ((a', b') :: rest') i) : a' ≤ a := by
  by_contra hlt
  have hnone : Memory.read ((a', b') :: rest') a = none :=
    read_eq_none_of_lt_head hwf fun cell hcell => by cases hcell; exact Nat.not_le.mp hlt
  have hsome := h a
  rw [read_cons_self, hnone] at hsome
  cases hsome

/-- Canonical texts that read alike are equal: their first cells agree, and so do the rests (R31, log 1). -/
theorem eq_of_read_eq {m1 m2 : Memory} (h1 : Memory.wf m1 = true) (h2 : Memory.wf m2 = true)
    (h : ∀ i, Memory.read m1 i = Memory.read m2 i) : m1 = m2 := by
  induction m1 generalizing m2 with
  | nil =>
    cases m2 with
    | nil => rfl
    | cons cell rest =>
      have hread := h cell.1
      rw [read_cons_self] at hread
      cases hread
  | cons cell rest ih =>
    cases m2 with
    | nil =>
      have hread := h cell.1
      rw [read_cons_self] at hread
      cases hread
    | cons cell' rest' =>
      obtain ⟨a, b⟩ := cell
      obtain ⟨a', b'⟩ := cell'
      obtain rfl : a = a' := Nat.le_antisymm (head_le_of_read_eq h1 fun i => (h i).symm) (head_le_of_read_eq h2 h)
      obtain rfl : b = b' := by
        have hread := h a
        rwa [read_cons_self, read_cons_self, Option.some.injEq] at hread
      obtain ⟨hrest, hhead⟩ := (wf_cons a b rest).mp h1
      obtain ⟨hrest', hhead'⟩ := (wf_cons a b rest').mp h2
      refine congrArg _ (ih hrest hrest' fun i => ?_)
      by_cases hi : i = a
      · subst hi
        rw [read_eq_none_of_lt_head hrest hhead, read_eq_none_of_lt_head hrest' hhead']
      · have hread := h i
        rwa [Memory.read, Memory.read, if_neg hi, if_neg hi] at hread

/-- Settles O19: the law of a read after a write, the canonical form kept, and equality of canonical texts. -/
theorem textMemoryLaws : Obligations.TextMemoryLaws :=
  ⟨read_write, wf_write, fun _ _ => eq_of_read_eq⟩

end Sys2Proof.Machine
end

section
/-! SUPPORT. BATCHINIT, PLACE, ASSEMBLE, DISPOSE and SERIALIZE as operations (44_batch_assembler.md R116 to R130;
45_postprocessor.md R139). -/

namespace Sys2Proof.Machine

/-- Settles O33: the new slot array is the idle one. -/
theorem batchinitFillsEverySlotWithIdle : Obligations.BatchinitFillsEverySlotWithIdle :=
  fun _ => ⟨idleSlots, rfl, idleSlots_getElem⟩

/-- A placement above slot 31 is dropped (R33, R117). -/
theorem placeSlot_of_gt {k : Nat} (h : 31 < k) (v : Word) (slots : Slots) : placeSlot k v slots = slots :=
  dif_neg (Nat.not_le.mpr h)

/-- Settles O34: one slot read after PLACE, and the placement that is dropped. -/
theorem placeWritesOneSlotOrNone : Obligations.PlaceWritesOneSlotOrNone :=
  fun k v s => ⟨placeSlot k.toNat v s.work.slots, rfl, placeSlot_getElem k.toNat v s.work.slots,
    fun h => placeSlot_of_gt h v s.work.slots⟩

section
variable {aslot : Nat} {acw : Word} {mcw : List Word}

/-- The address slot holds the address codeword (R119). -/
theorem assembleSlots_getElem_address (h : aslot < 32) : (assembleSlots aslot acw mcw)[aslot] = acw := by
  rw [assembleSlots_getElem, dif_neg (by omega), if_pos rfl]

/-- Message codeword i stands i + 1 slots after the address codeword (R119). -/
theorem assembleSlots_getElem_message {i : Nat} (h : i < mcw.length) (h' : aslot + 1 + i < 32) :
    (assembleSlots aslot acw mcw)[aslot + 1 + i] = mcw[i] := by
  rw [assembleSlots_getElem, dif_pos (by omega)]
  congr 1
  omega

/-- Every slot before the address codeword or after the last message codeword is idle (R122). -/
theorem assembleSlots_getElem_idle {k : Nat} (hk : k < 32) (h : k < aslot ∨ aslot + mcw.length < k) :
    (assembleSlots aslot acw mcw)[k] = Config.idle := by
  rw [assembleSlots_getElem, dif_neg (by omega), if_neg (by omega)]

end

/-- Settles O35: the new slot array, slot by slot. -/
theorem assemblePlacesAddressThenMessage : Obligations.AssemblePlacesAddressThenMessage :=
  fun aslot acw mcw _ => ⟨assembleSlots aslot.toNat acw mcw, rfl, assembleSlots_getElem_address,
    fun _ h h' => assembleSlots_getElem_message h h', fun _ hk h => assembleSlots_getElem_idle hk h⟩

section
variable {highest : Nat} (slots : Slots)

/-- Once Batch 2 is reached the policy is not looked at (R128). -/
theorem disposeSlots_reached (h : 16 ≤ highest) (q : BitVec 8) : disposeSlots highest q slots = (.two, slots) :=
  if_pos h

/-- CopyBatch1 below 16 (R127). -/
theorem disposeSlots_copy (h : highest < 16) : disposeSlots highest 1#8 slots = (.two, copyFirstBatch slots) := by
  rw [disposeSlots, if_neg (Nat.not_le.mpr h), if_neg (by decide), if_pos rfl]

/-- Truncate and LeaveIdle below 16 (R126, R129). -/
theorem disposeSlots_keep (h : highest < 16) {q : BitVec 8} (hq : q ≠ 1#8) :
    disposeSlots highest q slots = (.one, slots) := by
  rw [disposeSlots, if_neg (Nat.not_le.mpr h), if_neg hq, ite_self]

/-- Policies other than CopyBatch1 are disposed of alike (R129). -/
theorem disposeSlots_congr_policy {q q' : BitVec 8} (hq : q ≠ 1#8) (hq' : q' ≠ 1#8) :
    disposeSlots highest q slots = disposeSlots highest q' slots := by
  rcases Nat.lt_or_ge highest 16 with h | h
  · rw [disposeSlots_keep slots h hq, disposeSlots_keep slots h hq']
  · rw [disposeSlots_reached slots h, disposeSlots_reached slots h]

end

section
variable {highest : BitVec 5} (s : State)

/-- Issuing DISPOSE under Truncate or LeaveIdle with the highest slot in Batch 1 sets the count to 1 (R126, R129). -/
theorem exec_dispose_keep (h : highest.toNat < 16) {q : BitVec 8} (hq : q ≠ 1#8) (hlegal : legalPolicy q = true) :
    exec (.dispose highest q) s = .next { s with work := { s.work with count := .one } } := by
  rw [exec_dispose s (by rw [hlegal, Bool.or_true]), disposeSlots_keep s.work.slots h hq]

theorem exec_dispose_copy (h : highest.toNat < 16) :
    exec (.dispose highest 1#8) s =
      .next { s with work := { s.work with slots := copyFirstBatch s.work.slots, count := .two } } := by
  rw [exec_dispose s (by rw [show legalPolicy 1#8 = true from rfl, Bool.or_true]), disposeSlots_copy s.work.slots h]

theorem exec_dispose_reached (h : 16 ≤ highest.toNat) (q : BitVec 8) :
    exec (.dispose highest q) s = .next { s with work := { s.work with count := .two } } := by
  rw [exec_dispose s (by rw [decide_eq_true h, Bool.true_or]), disposeSlots_reached s.work.slots h]

end

/-- Settles O36: one case per policy below 16, and the one at 16 and above. -/
theorem disposeFollowsThePolicy : Obligations.DisposeFollowsThePolicy := by
  intro highest s
  refine ⟨fun h => ⟨exec_dispose_keep s h (by decide) rfl, copyFirstBatch s.work.slots, exec_dispose_copy s h,
    fun i hi => ⟨?_, ?_⟩⟩, fun h q => exec_dispose_reached s h q⟩
  · simp only [copyFirstBatch_getElem, Nat.mod_eq_of_lt hi]
  · simp only [copyFirstBatch_getElem, Nat.add_mod_left, Nat.mod_eq_of_lt hi]

/-- Issuing SERIALIZE answers the four bytes and changes only the answer record (R139). -/
theorem exec_serialize (v : Word) (s : State) :
    exec (.serialize v) s = .next { s with result := .bytes (serialize v) } := rfl

/-- Settles O39: the bytes are four stretches of the word side by side. -/
theorem serializeIsMostSignificantFirst : Obligations.SerializeIsMostSignificantFirst := by
  intro v s
  refine ⟨_, _, _, _, exec_serialize v s, ⟨rfl, rfl, rfl, rfl⟩, ?_⟩
  rw [BitVec.extractLsb'_append_extractLsb'_eq_extractLsb' (start₂ := 24) (by decide)]
  exact append3_extractLsb' (m := 16) (n := 8) (k := 8) v

end Sys2Proof.Machine
end

section
/-! SUPPORT. VALIDATE's four answers, each by its condition on the ports (40_validator.md R70 to R74). -/

namespace Sys2Proof.Machine

section
variable {a : BitVec 32} {f q : BitVec 8}

theorem validate_eq_invalidAddress_iff : validate a f q = .err .invalidAddress ↔ legalAddress a = false := by
  unfold validate
  split_ifs <;> simp_all

theorem validate_eq_invalidFunctionCode_iff :
    validate a f q = .err .invalidFunctionCode ↔ legalAddress a = true ∧ legalFunctionCode f = false := by
  unfold validate
  split_ifs <;> simp_all

theorem validate_eq_invalidBatch2Policy_iff :
    validate a f q = .err .invalidBatch2Policy ↔
      legalAddress a = true ∧ legalFunctionCode f = true ∧ legalPolicy q = false := by
  unfold validate
  split_ifs <;> simp_all

theorem legalAddress_eq_false_iff : legalAddress a = false ↔ a.toNat = 0 ∨ 0x1FFFFF < a.toNat := by
  rw [Bool.eq_false_iff, ne_eq, legalAddress_iff]; omega

theorem legalFunctionCode_eq_false_iff : legalFunctionCode f = false ↔ f.toNat ∉ [0, 1, 3] := by
  rw [Bool.eq_false_iff, ne_eq, legalFunctionCode_iff]

theorem legalPolicy_eq_false_iff : legalPolicy q = false ↔ 2 < q.toNat := by
  rw [Bool.eq_false_iff, ne_eq, legalPolicy_iff, Nat.not_le]

end

/-- Settles O20: the answer is the one of the first port that is not legal, and each port's check is a range of
numbers. -/
theorem validateReportsTheFirstViolation : Obligations.ValidateReportsTheFirstViolation := by
  intro a f q s
  have ha := legalAddress_iff a
  have hf := legalFunctionCode_iff f
  refine ⟨validate a f q, rfl, ?_, ?_, ?_, ?_⟩
  · exact validate_eq_invalidAddress_iff.trans legalAddress_eq_false_iff
  · exact validate_eq_invalidFunctionCode_iff.trans (and_congr ha legalFunctionCode_eq_false_iff)
  · exact validate_eq_invalidBatch2Policy_iff.trans (and_congr ha (and_congr hf legalPolicy_eq_false_iff))
  · exact (validate_ok_iff a f q).trans (and_congr ha (and_congr hf (legalPolicy_iff q)))

end Sys2Proof.Machine
end

section
/-! SUPPORT. BCHEncoder's two operations as functions of the operand: the steps in the words of R81, the fields of the
result, linearity, and the basis table (41_bch_encoder.md R81 to R85; 95_test_vectors.md section 2.1). -/

namespace Sys2Proof.Machine

/-- The step of R81 with its test on the most significant bit written as `msb`. -/
theorem bchStep_eq : bchStep = fun x : Word => (if x.msb then x ^^^ 0xED200000#32 else x) <<< 1 := by
  funext x
  rw [BitVec.msb_eq_getLsbD_last]
  rfl

theorem bchWork_eq_iterate (v : Word) :
    bchWork v = (fun x : Word => (if x.msb then x ^^^ 0xED200000#32 else x) <<< 1)^[21] v := by
  rw [bchWork, bchSteps_eq_iterate, bchStep_eq]

/-- `chk` is the working copy shifted right by 21 (R22). -/
theorem bchChk_eq_ushiftRight (v : Word) : bchChk v = (bchWork v >>> 21).setWidth 11 := by
  refine extractLsb'_eq_of_getLsbD fun i hi => ?_
  rw [BitVec.getLsbD_setWidth, BitVec.getLsbD_ushiftRight, decide_eq_true hi, Bool.true_and]

/-- The shifted working copy has no bit above the 11 of `chk`. -/
theorem bchChk_setWidth (v : Word) : (bchChk v).setWidth 32 = bchWork v >>> 21 := by
  have hlt := (bchWork v).isLt
  refine BitVec.eq_of_toNat_eq ?_
  rw [bchChk_eq_ushiftRight, BitVec.toNat_setWidth_of_le (by decide), BitVec.toNat_setWidth, BitVec.toNat_ushiftRight,
    Nat.shiftRight_eq_div_pow]
  omega

theorem lowBitsClear_of_eq {v : Word} (h : v &&& 0x7FF#32 = 0#32) : lowBitsClear v = true :=
  (lowBitsClear_eq_true_iff v).mpr h

theorem bchchk_zero : bchchk 0#32 = 0#32 := by
  simpa using bchchk_xor 0#32 0#32 rfl rfl

theorem bchenc_zero : bchenc 0#32 = 0#32 := by
  simpa using bchenc_xor 0#32 0#32 rfl rfl

/-- Settles O21: BCHCHK's next state, with the 21 steps written as an iterate and `chk` as the shifted copy. -/
theorem bchchkRunsTwentyOneSteps : Obligations.BchchkRunsTwentyOneSteps := by
  refine ⟨fun v s h => ⟨bchWork v, bchWork_eq_iterate v, ?_⟩, fun s => ⟨_, exec_bchchk s rfl, ?_⟩⟩
  · rw [exec_bchchk s (lowBitsClear_of_eq h), bchchk, bchChk_setWidth, bchChk_eq_ushiftRight]
  · exact congrArg Result.word bchchk_zero

section
variable {v : Word} (h : lowBitsClear v = true)
include h

/-- BCHCHK keeps bits 31..11 of its operand (R82). -/
theorem bchchk_extract_top : (bchchk v).extractLsb' 11 21 = v.extractLsb' 11 21 := by
  refine extractLsb'_eq_of_getLsbD fun i hi => ?_
  rw [bchchk_getLsbD v h _ (by omega), if_pos (by omega), BitVec.getLsbD_extractLsb', decide_eq_true hi, Bool.true_and]

/-- The check field is the working copy's bits 31..22 (R82). -/
theorem bchchk_extract_check : (bchchk v).extractLsb' 1 10 = (bchWork v).extractLsb' 22 10 := by
  refine extractLsb'_eq_of_getLsbD fun i hi => ?_
  rw [bchchk_getLsbD v h _ (by omega), if_neg (by omega), if_pos (by omega), BitVec.getLsbD_extractLsb',
    decide_eq_true hi, Bool.true_and, ← Nat.add_assoc]

theorem bchWork_extract_low : (bchWork v).extractLsb' 0 22 = 0#22 := by
  refine extractLsb'_eq_of_getLsbD fun i hi => ?_
  rw [bchWork_clear v h _ (by omega), BitVec.getLsbD_zero]

theorem bchChk_bit0 : (bchChk v).getLsbD 0 = false := by
  rw [bchChk, BitVec.getLsbD_extractLsb', bchWork_clear v h 21 (by decide), Bool.and_false]

/-- BCHENC keeps bits 31..11 of its operand (R85). -/
theorem bchenc_extract_top : (bchenc v).extractLsb' 11 21 = v.extractLsb' 11 21 := by
  refine extractLsb'_eq_of_getLsbD fun i hi => ?_
  rw [bchenc_top v h _ (by omega) (by omega), BitVec.getLsbD_extractLsb', decide_eq_true hi, Bool.true_and]

/-- BCHENC's check field is BCHCHK's (R85). -/
theorem bchenc_extract_check : (bchenc v).extractLsb' 1 10 = (bchchk v).extractLsb' 1 10 := by
  refine extractLsb'_eq_of_getLsbD fun i hi => ?_
  rw [bchenc_check v h _ (by omega), BitVec.getLsbD_extractLsb', decide_eq_true hi, Bool.true_and]

end

/-- Settles O22: BCHCHK's next state and result, field by field. -/
theorem checkFieldLandsInBitsTenToOne : Obligations.CheckFieldLandsInBitsTenToOne := by
  intro v s hv
  have h := lowBitsClear_of_eq hv
  exact ⟨_, bchchk v, exec_bchchk s h, rfl, bchWork_extract_low h, bchChk_bit0 h, bchchk_extract_top h,
    bchchk_extract_check h, bchchk_bit0 v h⟩

/-- Settles O24: the words are BCHCHK's and BCHENC's of v; EVENPAR of the first is the second by definition. -/
theorem bchencMeetsItsContract : Obligations.BchencMeetsItsContract := by
  intro v hv
  have h := lowBitsClear_of_eq hv
  exact ⟨bchchk v, bchenc v, bchWork v, bchChk v, bchenc_extract_top h, bchenc_extract_check h,
    (oddPopcount_eq_false_iff _).mp (bchenc_even v h), isCodeword_bchenc v h,
    fun s => ⟨exec_bchchk s h, exec_evenpar (bchchk_bit0 v h) s, exec_bchenc s h⟩⟩

/-- Settles O25: the exclusive-or of two operands is an operand, and both functions are linear. -/
theorem bchIsLinearOverExclusiveOr : Obligations.BchIsLinearOverExclusiveOr := by
  intro a b s ha hb
  have ha := lowBitsClear_of_eq ha
  have hb := lowBitsClear_of_eq hb
  have hab := lowBitsClear_xor a b ha hb
  exact ⟨⟨_, _, _, bchchk a, bchchk b, exec_bchchk s ha, exec_bchchk s hb, exec_bchchk s hab, rfl, rfl,
      congrArg Result.word (bchchk_xor a b ha hb)⟩,
    ⟨_, _, _, bchenc a, bchenc b, exec_bchenc s ha, exec_bchenc s hb, exec_bchenc s hab, rfl, rfl,
      congrArg Result.word (bchenc_xor a b ha hb)⟩⟩

end Sys2Proof.Machine
end

section
/-! SUPPORT. The basis table: an operand is the exclusive-or of its set bits, so BCHENC of it is the exclusive-or of
BCHENC of single bits (95_test_vectors.md section 2.1; 41_bch_encoder.md R83). -/

namespace Sys2Proof.Machine

/-- The basis table: a bit of the operand and BCHENC of that bit alone. -/
def basisTable : List (Nat × Word) :=
  [(31, 0x80000769#32), (30, 0x400003B5#32), (29, 0x200001DB#32), (28, 0x10000784#32), (27, 0x080003C2#32),
    (26, 0x04000689#32), (25, 0x02000345#32), (24, 0x010001A3#32), (23, 0x008007B8#32), (22, 0x004003DC#32),
    (21, 0x002001EE#32), (20, 0x0010079F#32), (19, 0x000804A6#32), (18, 0x0004053B#32), (17, 0x000205F4#32),
    (16, 0x000102FA#32), (15, 0x00008615#32), (14, 0x0000430B#32), (13, 0x000026EC#32), (12, 0x00001376#32),
    (11, 0x00000ED3#32)]

/-- A list of bits beside the words BCHENC gives for each of them alone. -/
def IsBasis (table : List (Nat × Word)) : Prop :=
  ∀ e ∈ table, lowBitsClear (BitVec.twoPow 32 e.1) = true ∧ bchenc (BitVec.twoPow 32 e.1) = e.2

theorem isBasis_basisTable : IsBasis basisTable := by
  unfold IsBasis
  decide +kernel

/-- BCHENC of an exclusive-or of single bits, one bit after another (R83). -/
theorem bchenc_foldl_xor {table : List (Nat × Word)} (h : IsBasis table) {a : Word} (ha : lowBitsClear a = true) :
    bchenc (table.foldl (fun acc e => acc ^^^ BitVec.twoPow 32 e.1) a) =
      table.foldl (fun acc e => acc ^^^ e.2) (bchenc a) := by
  induction table generalizing a with
  | nil => rfl
  | cons e table ih =>
    obtain ⟨hclear, hword⟩ := h e List.mem_cons_self
    rw [List.foldl_cons, List.foldl_cons, ih (fun e he => h e (List.mem_cons_of_mem _ he))
      (lowBitsClear_xor a _ ha hclear), bchenc_xor a _ ha hclear, hword]

/-- A bit of an exclusive-or of different single bits. -/
theorem getLsbD_foldl_xor_twoPow {table : List (Nat × Word)} (h : (table.map Prod.fst).Nodup) (a : Word) {j : Nat}
    (hj : j < 32) :
    (table.foldl (fun acc e => acc ^^^ BitVec.twoPow 32 e.1) a).getLsbD j =
      (a.getLsbD j ^^ decide (j ∈ table.map Prod.fst)) := by
  induction table generalizing a with
  | nil => simp
  | cons e table ih =>
    rw [List.map_cons, List.nodup_cons] at h
    obtain ⟨hnew, hrest⟩ := h
    rw [List.foldl_cons, ih hrest, BitVec.getLsbD_xor, BitVec.getLsbD_twoPow, Bool.xor_assoc]
    congr 1
    by_cases hje : e.1 = j
    · subst hje; simp [hnew, hj]
    · simp [hje, Ne.symm hje]

theorem nodup_basisTable : (basisTable.map Prod.fst).Nodup := by decide

/-- The bits of the table are those an operand can have set. -/
theorem mem_basisTable_fst : ∀ j < 32, (j ∈ basisTable.map Prod.fst ↔ 11 ≤ j) := by decide

/-- An operand is the exclusive-or of its set bits. -/
theorem foldl_xor_twoPow_basisTable {v : Word} (h : lowBitsClear v = true) :
    (basisTable.filter fun e => v.getLsbD e.1).foldl (fun acc e => acc ^^^ BitVec.twoPow 32 e.1) 0#32 = v := by
  have hnodup : ((basisTable.filter fun e => v.getLsbD e.1).map Prod.fst).Nodup :=
    nodup_basisTable.sublist (List.filter_sublist.map Prod.fst)
  refine BitVec.eq_of_getLsbD_eq fun j hj => ?_
  have hmem : j ∈ (basisTable.filter fun e => v.getLsbD e.1).map Prod.fst ↔ v.getLsbD j = true := by
    have htable := mem_basisTable_fst j hj
    have hlow := (lowBitsClear_iff v).mp h j
    simp only [List.mem_map, List.mem_filter] at htable ⊢
    constructor
    · rintro ⟨e, ⟨-, hset⟩, rfl⟩
      exact hset
    · intro hset
      obtain ⟨e, he, rfl⟩ := htable.mpr (Nat.not_lt.mp fun hlt => by rw [hlow hlt] at hset; cases hset)
      exact ⟨e, ⟨he, hset⟩, rfl⟩
  rw [getLsbD_foldl_xor_twoPow hnodup _ hj, BitVec.getLsbD_zero, Bool.false_xor]
  exact Bool.eq_iff_iff.mpr (decide_eq_true_iff.trans hmem)

/-- Settles O26: BCHENC's result on the operand, taken apart into its set bits. -/
theorem bchencIsGivenByTheBasisTable : Obligations.BchencIsGivenByTheBasisTable := by
  intro v s hv
  have h := lowBitsClear_of_eq hv
  have hbasis : IsBasis (basisTable.filter fun e => v.getLsbD e.1) :=
    fun e he => isBasis_basisTable e (List.mem_of_mem_filter he)
  have hfold := bchenc_foldl_xor hbasis (a := 0#32) rfl
  rw [foldl_xor_twoPow_basisTable h, bchenc_zero] at hfold
  exact ⟨_, exec_bchenc s h, congrArg Result.word hfold⟩

end Sys2Proof.Machine
end

section
/-! SUPPORT. The two builders as operations: the fields of the address codeword, the symbol table, the nibbles of a
message codeword, the cut into groups (42_address_codeword.md R91 to R95; 43_message_encoder.md R101 to R106). -/

namespace Sys2Proof.Machine

section
variable {a : BitVec 32} {f : BitVec 8} (h1 : 1 ≤ a.toNat) (hmax : a.toNat ≤ 0x1FFFFF) (hf : f.toNat ∈ [0, 1, 3])
include h1 hmax hf

/-- A validated address and function code are inside ADDRCW's contract (R96). -/
theorem addrcw_contract : (legalAddress a && legalFunctionCode f) = true := by
  rw [Bool.and_eq_true, legalAddress_iff, legalFunctionCode_iff]
  exact ⟨⟨h1, hmax⟩, hf⟩

/-- Issuing ADDRCW on validated operands (R91). -/
theorem exec_addrcw_validated (s : State) :
    exec (.addrcw a f) s =
      .next { s with work :=
        { s.work with frame := addressFrame a, aslot := addressSlot a, acw := addressCodeword a f } } :=
  exec_addrcw s (addrcw_contract h1 hmax hf)

end

section
variable (a : BitVec 32) (f : BitVec 8)

/-- The type flag of an address codeword is 0 (R94). -/
theorem addressCodeword_flag : (addressCodeword a f).getLsbD 31 = false :=
  addressCodeword_getLsbD a f 31 (by decide) (by decide)

/-- The address bits 20..3 stand in bits 30..13 (R93). -/
theorem addressCodeword_extract_address : (addressCodeword a f).extractLsb' 13 18 = a.extractLsb' 3 18 := by
  refine extractLsb'_eq_of_getLsbD fun i hi => ?_
  rw [addressCodeword_getLsbD a f _ (by omega) (by omega), if_neg (by omega), if_pos (by omega),
    BitVec.getLsbD_extractLsb', decide_eq_true hi, Bool.true_and]
  congr 1
  omega

/-- The function code stands in bits 12..11 (R93). -/
theorem addressCodeword_extract_functionCode : (addressCodeword a f).extractLsb' 11 2 = f.extractLsb' 0 2 := by
  refine extractLsb'_eq_of_getLsbD fun i hi => ?_
  rw [addressCodeword_getLsbD a f _ (by omega) (by omega), if_pos (by omega), BitVec.getLsbD_extractLsb',
    decide_eq_true hi, Bool.true_and]
  congr 1
  omega

end

/-- Settles O27: frame, slot and codeword are the builder's own, read field by field. -/
theorem addressCodewordRoundTrips : Obligations.AddressCodewordRoundTrips := by
  intro a f s h1 hmax hf
  have hcw := isCodeword_addressCodeword a f
  refine ⟨addressFrame a, addressCodeword a f, ?_, addressFrame_toNat a, addressCodeword_flag a f,
    addressCodeword_extract_address a f, addressCodeword_extract_functionCode a f, hcw, isCodeword_even _ hcw⟩
  rw [exec_addrcw_validated h1 hmax hf, addressSlot, Nat.mul_comm]

/-- Addresses 0 to 7 make the all-zero operand, and 0x1EA270 to 0x1EA277 the operand of the idle codeword (R95). -/
theorem addressCodeword_coincidences : ∀ k < 8,
    addressCodeword (BitVec.ofNat 32 k) 0#8 = 0#32 ∧
      addressCodeword (BitVec.ofNat 32 (0x1EA270 + k)) 0#8 = 0x7A89C197#32 := by
  decide +kernel

/-- Settles O28: the eight codewords are computed; the addresses are legal and their low three bits are k. -/
theorem addressCodewordCoincidences : Obligations.AddressCodewordCoincidences := by
  intro k s hk
  obtain ⟨hzero, hidle⟩ := addressCodeword_coincidences k hk
  have hlow : (BitVec.ofNat 32 k).toNat = k := by rw [BitVec.toNat_ofNat]; omega
  have hhigh : (BitVec.ofNat 32 (0x1EA270 + k)).toNat = 0x1EA270 + k := by rw [BitVec.toNat_ofNat]; omega
  refine ⟨fun h1 => ⟨_, exec_addrcw_validated (by omega) (by omega) (by decide) s, hzero, ?_⟩,
    ⟨_, exec_addrcw_validated (by omega) (by omega) (by decide) s, hidle, ?_⟩⟩
  · exact (addressSlot_eq _).trans (by omega)
  · exact (addressSlot_eq _).trans (by omega)

theorem charnib_digit {c : Byte} (h0 : 0x30 ≤ c.toNat) (h9 : c.toNat ≤ 0x39) : (charnib c).toNat = c.toNat - 0x30 := by
  rw [charnib, if_pos ⟨h0, h9⟩]
  bv_omega

theorem mem_listedCodes_iff (c : Byte) :
    c ∈ listedCodes ↔
      c.toNat ∈ [0x30, 0x31, 0x32, 0x33, 0x34, 0x35, 0x36, 0x37, 0x38, 0x39, 0x2A, 0x55, 0x20, 0x2D, 0x28, 0x29] := by
  simp only [listedCodes, List.mem_cons, List.not_mem_nil, or_false, BitVec.toNat_eq, BitVec.toNat_ofNat]

/-- A code that is not listed has the symbol value of `*` (R102). -/
theorem charnib_default {c : Byte} (h : c ∉ listedCodes) : charnib c = 10#4 := by
  have hdigit : ¬ (0x30 ≤ c.toNat ∧ c.toNat ≤ 0x39) := by
    rw [mem_listedCodes_iff] at h
    simp only [List.mem_cons, not_or] at h
    omega
  simp only [listedCodes, List.mem_cons, List.not_mem_nil, or_false, not_or] at h
  simp only [charnib, hdigit, h, if_false]

/-- Settles O29: the digits by arithmetic, the six other characters one by one, the rest by the default. -/
theorem charnibIsTheSymbolTable : Obligations.CharnibIsTheSymbolTable := by
  intro c s
  refine ⟨charnib c, rfl, charnib_digit, ?_, ?_, ?_, ?_, ?_, ?_, fun h => ?_⟩
  · rintro rfl; rfl
  · rintro rfl; rfl
  · rintro rfl; rfl
  · rintro rfl; rfl
  · rintro rfl; rfl
  · rintro rfl; rfl
  · exact charnib_default fun hc => h ((mem_listedCodes_iff c).mp hc)

/-- Settles O31: the codeword's flag and nibbles, those of the group and those of the fill. -/
theorem messageCodewordHoldsItsGroup : Obligations.MessageCodewordHoldsItsGroup := by
  intro group s h1 h5
  have hcw := isCodeword_messageCodeword group
  refine ⟨messageCodeword group, exec_msgcw s ⟨h1, h5⟩, messageCodeword_flag group, hcw, isCodeword_even _ hcw,
    fun j hj => ?_, fun j hge hj => ?_⟩
  · rw [messageCodeword_nibble group j (by omega), groupNibble_of_lt group j hj]
  · rw [messageCodeword_nibble group j hj, groupNibble_of_ge group j hge]

/-- Settles O32: the codewords in order, each the MSGCW of its own group, which has 1 to 5 characters. -/
theorem messageIsCutIntoGroupsOfFive : Obligations.MessageIsCutIntoGroupsOfFive := by
  intro text s h40
  have hlen := messageCodewords_length text
  refine ⟨messageCodewords text, exec_msgenc s h40, hlen, by omega, fun i hi => ?_⟩
  refine ⟨_, List.getElem?_eq_getElem hi, ?_⟩
  rw [messageCodewords_getElem, exec_msgcw s (textGroup_length text i (by omega))]

/-- Settles O44: each builder writes call-scoped values that the other neither reads nor writes. -/
theorem theTwoBuildersCommute : Obligations.TheTwoBuildersCommute := by
  intro a f text s h1 hmax hf h40
  exact ⟨_, _, _, exec_addrcw_validated h1 hmax hf s, exec_msgenc s h40, exec_msgenc _ h40,
    exec_addrcw_validated h1 hmax hf _⟩

end Sys2Proof.Machine
end

section
/-! SUPPORT. The words of a response are codewords and a count of 1 leaves Batch 2 idle, for every transaction; then the
invariant, kept by the port, by ENCODE, by every other instruction, and so by every step (46_encode_transaction.md R149;
10_state.md R15, R19; 20_memory.md R31). -/

namespace Sys2Proof.Machine

/-- An Ok response holds the two halves of the slot array after inversion (R145). -/
theorem transactionOn_rsp_eq_ok {q : Request} {s : State} {c : BatchCount} {b1 b2 : Batch}
    (h : (transactionOn q s).rsp = .ok c b1 b2) :
    c = (disposedSlots q).1 ∧ b1 = firstBatch (invertSlots q.invertPhase (disposedSlots q).2) ∧
      b2 = secondBatch (invertSlots q.invertPhase (disposedSlots q).2) := by
  cases hv : validate q.address q.functionCode q.batch2Policy with
  | ok => rw [transactionOn_ok s hv] at h; cases h; exact ⟨rfl, rfl, rfl⟩
  | err k => rw [transactionOn_err s hv] at h; cases h

theorem isCodeword_invertSlots {slots : Slots} (b : Bool) {j : Nat} (hj : j < 32) (h : isCodeword slots[j] = true) :
    isCodeword (invertSlots b slots)[j] = true := by
  rw [invertSlots_getElem]
  cases b
  · exact h
  · exact isCodeword_not _ h

/-- Every word of a transaction's response is a codeword (R149). -/
theorem isCodeword_transactionOn {q : Request} {s : State} {c : BatchCount} {b1 b2 : Batch}
    (h : (transactionOn q s).rsp = .ok c b1 b2) {i : Nat} (hi : i < 16) :
    isCodeword b1[i] = true ∧ isCodeword b2[i] = true := by
  obtain ⟨-, rfl, rfl⟩ := transactionOn_rsp_eq_ok h
  rw [firstBatch_getElem, secondBatch_getElem]
  exact ⟨isCodeword_invertSlots _ _ (isCodeword_disposedSlots q i _),
    isCodeword_invertSlots _ _ (isCodeword_disposedSlots q (16 + i) _)⟩

/-- Settles O48: a codeword has an even count, and every word of a transaction's response is one. -/
theorem everyOutputWordIsACodeword : Obligations.EveryOutputWordIsACodeword := by
  intro a f q v text s t c b1 b2 ht hrsp i hi
  obtain ⟨-, rfl⟩ := execEncode_next ht
  obtain ⟨h1, h2⟩ := isCodeword_transactionOn hrsp hi
  exact ⟨⟨isCodeword_even _ h1, h1⟩, ⟨isCodeword_even _ h2, h2⟩⟩

/-- The number of message codewords of a transaction's text (R106, R144). -/
theorem messageCodewords_take_length (text : List Byte) :
    (messageCodewords (text.take 40)).length = (min text.length 40 + 4) / 5 := by
  rw [messageCodewords_length, List.length_take, Nat.min_comm]

/-- Under a count of 1 every slot of Batch 2 is idle before inversion (R19, R126, R129). -/
theorem disposedSlots_second_idle {q : Request} (h : (disposedSlots q).1 = .one) {i : Nat} (hi : i < 16) :
    (disposedSlots q).2[16 + i] = Config.idle := by
  obtain ⟨a, f, p, v, text⟩ := q
  have hcount := (disposedSlots_count a f p v text).not.mp (by rw [h]; decide)
  rw [not_or] at hcount
  obtain ⟨hreach, hcopy⟩ := hcount
  rw [disposedSlots_getElem, if_neg fun hp => hcopy hp.1]
  refine assembleSlots_getElem_idle (by omega) (.inr ?_)
  rw [addressSlot_eq, messageCodewords_take_length]
  omega

/-- The same for the response, all idle or all complemented. -/
theorem transactionOn_second_idle {q : Request} {s : State} {b1 b2 : Batch}
    (h : (transactionOn q s).rsp = .ok .one b1 b2) :
    (∀ (i : Nat) (hi : i < 16), b2[i] = Config.idle) ∨ (∀ (i : Nat) (hi : i < 16), b2[i] = ~~~Config.idle) := by
  obtain ⟨hc, -, rfl⟩ := transactionOn_rsp_eq_ok h
  cases hv : q.invertPhase
  · refine .inl fun i hi => ?_
    rw [secondBatch_getElem, invertSlots_getElem, disposedSlots_second_idle hc.symm hi]; rfl
  · refine .inr fun i hi => ?_
    rw [secondBatch_getElem, invertSlots_getElem, disposedSlots_second_idle hc.symm hi]; rfl

section
variable {s t : State}

/-- The invariant looks at TEXT and RSP only. -/
theorem Inv.congr (h : Inv s) (htext : t.req.text = s.req.text) (hrsp : t.rsp = s.rsp) : Inv t where
  textCanonical := by rw [htext]; exact h.textCanonical
  textInRange := by rw [htext]; exact h.textInRange
  wordsAreCodewords := by rw [hrsp]; exact h.wordsAreCodewords
  secondBatchUnused := by rw [hrsp]; exact h.secondBatchUnused

/-- A new TEXT that is canonical and in range keeps the invariant. -/
theorem Inv.setText (h : Inv s) (hrsp : t.rsp = s.rsp) (hwf : Memory.wf t.req.text = true)
    (hrange : ∀ cell ∈ t.req.text, cell.1 < Config.textLenMax) : Inv t where
  textCanonical := hwf
  textInRange := hrange
  wordsAreCodewords := by rw [hrsp]; exact h.wordsAreCodewords
  secondBatchUnused := by rw [hrsp]; exact h.secondBatchUnused

/-- A transaction keeps the invariant (R149). -/
theorem Inv.transactionOn (h : Inv s) (q : Request) : Inv (transactionOn q s) where
  textCanonical := by rw [transactionOn_eq]; exact h.textCanonical
  textInRange := by rw [transactionOn_eq]; exact h.textInRange
  wordsAreCodewords := fun _ _ _ hrsp _ hi => isCodeword_transactionOn hrsp hi
  secondBatchUnused := fun _ _ hrsp => transactionOn_second_idle hrsp

/-- Presenting a request that fits TEXT keeps the invariant (R15, R63). -/
theorem Inv.presentRequest (h : Inv s) {q : Request} (hq : q.text.length ≤ Config.textLenMax) :
    Inv (presentRequest q s) := by
  refine h.setText rfl (wf_writeText q.text s.req.text 0 h.textCanonical) fun cell hcell => ?_
  rcases mem_writeText q.text hcell with hold | hnew
  · exact h.textInRange cell hold
  · omega

theorem Inv.exec (h : Inv s) {i : Instr} (ht : exec i s = .next t) : Inv t := by
  cases hi : startsTransaction i with
  | true =>
    obtain ⟨a, f, q, v, text, rfl⟩ := exists_encode_of_startsTransaction hi
    obtain ⟨hlen, rfl⟩ := execEncode_next ht
    exact (h.presentRequest hlen).transactionOn _
  | false =>
    have heffect := exec_effect i s hi
    rw [ht] at heffect
    cases heffect with
    | write _ _ _ _ _ htext hrsp => exact h.congr htext hrsp
    | compute _ _ _ hreq hrsp => exact h.congr (by rw [hreq]) hrsp

theorem Inv.startTransaction (h : Inv s) (ht : startTransaction s = .next t) : Inv t := by
  obtain ⟨q, -, rfl⟩ := startTransaction_next ht
  exact h.transactionOn q

theorem Inv.writeChar (h : Inv s) {k : Nat} {c : Byte} (ht : writeChar k c s = .next t) : Inv t := by
  unfold Machine.writeChar at ht
  split at ht
  next hk =>
    cases ht
    refine h.setText rfl (wf_write _ k c h.textCanonical) fun cell hcell => ?_
    rcases mem_write hcell with rfl | hold
    · exact hk
    · exact h.textInRange cell hold
  next => cases ht

/-- Settles O10: the text is empty and there is no response. -/
theorem resetHasTheInvariant : Obligations.ResetHasTheInvariant where
  textCanonical := rfl
  textInRange := fun _ h => nomatch h
  wordsAreCodewords := fun _ _ _ h => nomatch h
  secondBatchUnused := fun _ _ h => nomatch h

theorem Inv.runPort (h : Inv s) {a : PortAction} (ht : runPort a s = .next t) : Inv t := by
  cases a with
  | reset => cases ht; exact resetHasTheInvariant.congr rfl rfl
  | start => exact h.startTransaction ht
  | writeChar k c => exact h.writeChar ht
  | writeAddress | writeFunctionCode | writeBatch2Policy | writeInvertPhase | writeTextLen | readValid =>
    cases ht; exact h.congr rfl rfl
  | readStatus | readBatchCount =>
    obtain ⟨x, -, rfl⟩ := answerRead_next ht
    exact h.congr rfl rfl
  | readWord b i =>
    obtain ⟨x, rfl⟩ := readWord_next ht
    exact h.congr rfl rfl
  | readBytes b k n =>
    obtain ⟨x, rfl⟩ := readBytes_next ht
    exact h.congr rfl rfl

end

/-- Settles O9: an idle step changes nothing; otherwise the action taken off the script is one at the port or an
instruction, and both keep the invariant. -/
theorem everyStepKeepsTheInvariant : Obligations.EveryStepKeepsTheInvariant := by
  intro s t h ht
  cases hp : s.pending with
  | nil =>
    rw [step_of_pending_nil hp] at ht
    cases ht
    exact h
  | cons action rest =>
    have hrest : Inv (s.setPending rest) := h.congr rfl rfl
    cases action with
    | port a =>
      rw [step_port hp] at ht
      exact hrest.runPort ht
    | issue sel bytes =>
      cases hd : decode sel bytes with
      | error why => rw [step_issue_undecodable hp hd] at ht; cases ht
      | ok r => rw [step_issue hp hd] at ht; exact hrest.exec ht

end Sys2Proof.Machine
end

section
/-! SUPPORT. The ENCODE transaction as a whole: what an illegal and a legal request end in, and how the response depends
on the policy (46_encode_transaction.md R145, R149; 44_batch_assembler.md R126 to R129; 60_exceptions.md R163). -/

namespace Sys2Proof.Machine

/-- REQ after a call: the characters presented (log 17). -/
theorem read_presented_of_lt (mem : Memory) {text : List Byte} {i : Nat} (h : i < text.length) :
    Memory.read (Memory.writeText mem 0 text) i = text[i]? := by
  rw [read_writeText, if_pos ⟨Nat.zero_le i, by omega⟩, Nat.sub_zero]

/-- The characters past the text presented stay (log 17). -/
theorem read_presented_of_ge (mem : Memory) {text : List Byte} {i : Nat} (h : text.length ≤ i) :
    Memory.read (Memory.writeText mem 0 text) i = Memory.read mem i := by
  rw [read_writeText, if_neg (by omega)]

section
variable {a : BitVec 32} {f q : BitVec 8} {v : Bool} {text : List Byte} (s : State)
  (hlen : text.length ≤ Config.textLenMax)
include hlen

/-- ENCODE on a request VALIDATE rejects (R163). -/
theorem exec_encode_err {k : ErrorKind} (h : validate a f q = .err k) :
    exec (.encode a f q v text) s =
      .next { s with
        rsp := .err k
        work := Work.fresh
        req := { address := some a, functionCode := some f, batch2Policy := some q, invertPhase := some v,
                 textLen := some text.length, text := Memory.writeText s.req.text 0 text } } := by
  rw [exec_encode, execEncode_eq a f q v text s hlen, transactionOn_err _ h]
  rfl

/-- ENCODE on a request VALIDATE accepts (R145). -/
theorem exec_encode_ok (h : validate a f q = .ok) :
    exec (.encode a f q v text) s =
      .next { s with
        rsp := .ok (disposedSlots ⟨a, f, q, v, text⟩).1
          (firstBatch (invertSlots v (disposedSlots ⟨a, f, q, v, text⟩).2))
          (secondBatch (invertSlots v (disposedSlots ⟨a, f, q, v, text⟩).2))
        work := Work.fresh
        req := { address := some a, functionCode := some f, batch2Policy := some q, invertPhase := some v,
                 textLen := some text.length, text := Memory.writeText s.req.text 0 text } } := by
  rw [exec_encode, execEncode_eq a f q v text s hlen, transactionOn_ok _ h]
  rfl

end

/-- Settles O40: the condition on k says that k is VALIDATE's answer. -/
theorem encodeRaisesTheFirstError : Obligations.EncodeRaisesTheFirstError := by
  intro a f q v text s k hlen hk
  have hv : validate a f q = .err k := by
    rcases hk with ⟨rfl, ha⟩ | ⟨rfl, h1, hmax, hf⟩ | ⟨rfl, h1, hmax, hf, hq⟩
    · exact validate_eq_invalidAddress_iff.mpr (legalAddress_eq_false_iff.mpr ha)
    · exact validate_eq_invalidFunctionCode_iff.mpr
        ⟨(legalAddress_iff a).mpr ⟨h1, hmax⟩, legalFunctionCode_eq_false_iff.mpr hf⟩
    · exact validate_eq_invalidBatch2Policy_iff.mpr
        ⟨(legalAddress_iff a).mpr ⟨h1, hmax⟩, (legalFunctionCode_iff f).mpr hf, legalPolicy_eq_false_iff.mpr hq⟩
  exact ⟨_, exec_encode_err s hlen hv, fun _ hi => read_presented_of_lt _ hi, fun _ hi => read_presented_of_ge _ hi⟩

/-- A legal request by the numbers (R71 to R73). -/
theorem validate_ok {a : BitVec 32} {f q : BitVec 8} (h1 : 1 ≤ a.toNat) (hmax : a.toNat ≤ 0x1FFFFF)
    (hf : f.toNat ∈ [0, 1, 3]) (hq : q.toNat ≤ 2) : validate a f q = .ok :=
  (validate_ok_iff a f q).mpr
    ⟨(legalAddress_iff a).mpr ⟨h1, hmax⟩, (legalFunctionCode_iff f).mpr hf, (legalPolicy_iff q).mpr hq⟩

/-- The slot array of a legal request before DISPOSE and inversion, at every number of a slot; past the array the idle
codeword (R149 point 1). -/
def plainWord (a : BitVec 32) (f : BitVec 8) (text : List Byte) (k : Nat) : Word :=
  if h : k < 32 then (assembleSlots (addressSlot a) (addressCodeword a f) (messageCodewords (text.take 40)))[k]
  else Config.idle

section
variable {a : BitVec 32} {f : BitVec 8} {text : List Byte}

theorem plainWord_of_lt {k : Nat} (h : k < 32) :
    plainWord a f text k =
      (assembleSlots (addressSlot a) (addressCodeword a f) (messageCodewords (text.take 40)))[k] :=
  dif_pos h

/-- The address slot (R119). -/
theorem plainWord_address : plainWord a f text (2 * (a.toNat % 8)) = addressCodeword a f := by
  rw [← addressSlot_eq, plainWord_of_lt (by rw [addressSlot_eq]; omega), assembleSlots_getElem_address]

/-- The slot of group i (R119). -/
theorem plainWord_message {i : Nat} (h : i < (min text.length 40 + 4) / 5) :
    plainWord a f text (2 * (a.toNat % 8) + 1 + i) =
      messageCodeword (((text.take 40).drop (5 * i)).take 5) := by
  rw [← messageCodewords_take_length] at h
  have hlen := messageCodewords_take_length text
  have hslot : addressSlot a + 1 + i < 32 := by rw [addressSlot_eq]; omega
  rw [← addressSlot_eq, plainWord_of_lt hslot, assembleSlots_getElem_message h hslot, messageCodewords_getElem]

/-- Every other slot (R122). -/
theorem plainWord_idle {k : Nat}
    (h : k < 2 * (a.toNat % 8) ∨ 2 * (a.toNat % 8) + (min text.length 40 + 4) / 5 < k) :
    plainWord a f text k = Config.idle := by
  rcases Nat.lt_or_ge k 32 with hk | hk
  · rw [plainWord_of_lt hk]
    refine assembleSlots_getElem_idle hk ?_
    rwa [addressSlot_eq, messageCodewords_take_length]
  · exact dif_neg (Nat.not_lt.mpr hk)

variable (q : BitVec 8) (v : Bool)

/-- Batch 1 of a legal request before inversion (R149 point 1). -/
theorem disposedSlots_first {i : Nat} (hi : i < 16) :
    (disposedSlots ⟨a, f, q, v, text⟩).2[i] = plainWord a f text i := by
  rw [disposedSlots_getElem, plainWord_of_lt (by omega)]
  simp only [Nat.mod_eq_of_lt hi, ite_self]

/-- Batch 2 of a legal request before inversion: the copy of Batch 1, or what was assembled (R127, R149 point 1). -/
theorem disposedSlots_second {i : Nat} (hi : i < 16) :
    (disposedSlots ⟨a, f, q, v, text⟩).2[16 + i] =
      if q = 1#8 ∧ 2 * (a.toNat % 8) + (min text.length 40 + 4) / 5 < 16 then plainWord a f text i
      else plainWord a f text (16 + i) := by
  rw [disposedSlots_getElem, plainWord_of_lt (by omega), plainWord_of_lt (by omega)]
  simp only [Nat.add_mod_left, Nat.mod_eq_of_lt hi]

end

/-- Settles O41: `plainWord` says what stands in each slot; the batches are its halves after DISPOSE and inversion. -/
theorem encodeAnswersTheTwoBatches : Obligations.EncodeAnswersTheTwoBatches := by
  intro a f q v text s hlen h1 hmax hf hq
  have hb1 : ∀ (i : Nat) (h : i < 16), (firstBatch (invertSlots v (disposedSlots ⟨a, f, q, v, text⟩).2))[i] =
      if v then ~~~plainWord a f text i else plainWord a f text i := fun i hi => by
    rw [firstBatch_getElem, invertSlots_getElem, disposedSlots_first q v hi]
  refine ⟨_, _, _, _, plainWord a f text, exec_encode_ok s hlen (validate_ok h1 hmax hf hq),
    fun _ hi => read_presented_of_lt _ hi, fun _ hi => read_presented_of_ge _ hi, disposedSlots_count a f q v text,
    ⟨_, exec_addrcw_validated h1 hmax hf s, plainWord_address⟩, fun i hi => ?_, fun k hk => plainWord_idle hk, hb1,
    fun i hi => ?_⟩
  · rw [plainWord_message hi]
    exact exec_msgcw s (textGroup_length _ i (by rwa [List.length_take, Nat.min_comm]))
  · rw [hb1 i hi, secondBatch_getElem, invertSlots_getElem, disposedSlots_second q v hi]
    split_ifs <;> rfl

/-- Settles O47: the count and the batches of the general statement, read for CopyBatch1 below 16. -/
theorem copyBatch1MakesTheBatchesIdentical : Obligations.CopyBatch1MakesTheBatchesIdentical := by
  intro a f v text s hlen h1 hmax hf hbelow
  obtain ⟨mem, c, b1, b2, plain, hexec, -, -, hc, -, -, -, -, hb2⟩ :=
    encodeAnswersTheTwoBatches a f 1#8 v text s hlen h1 hmax hf (by decide)
  obtain rfl : c = .two := hc.mpr (.inr rfl)
  obtain rfl : b2 = b1 := Vector.ext fun i hi => (hb2 i hi).trans (if_pos ⟨rfl, hbelow⟩)
  exact ⟨_, b2, hexec, rfl⟩

/-- Two requests that VALIDATE answers alike and that fill the same slots under the same count give the same response
from any two states. -/
theorem transactionOn_rsp_congr {q q' : Request}
    (hv : validate q.address q.functionCode q.batch2Policy = validate q'.address q'.functionCode q'.batch2Policy)
    (hd : disposedSlots q = disposedSlots q') (hi : q.invertPhase = q'.invertPhase) (s s' : State) :
    (transactionOn q s).rsp = (transactionOn q' s').rsp := by
  cases h : validate q.address q.functionCode q.batch2Policy with
  | err k => rw [transactionOn_err s h, transactionOn_err s' (hv ▸ h)]; rfl
  | ok => rw [transactionOn_ok s h, transactionOn_ok s' (hv ▸ h), hd, hi]; rfl

theorem validate_congr_policy {q q' : BitVec 8} (h : legalPolicy q = legalPolicy q') (a : BitVec 32) (f : BitVec 8) :
    validate a f q = validate a f q' := by
  rw [validate, validate, h]

/-- Settles O37: DISPOSE alone, and two transactions whose requests differ in policies that are disposed of alike. -/
theorem leaveIdleGivesTheTruncateResponse : Obligations.LeaveIdleGivesTheTruncateResponse := by
  refine ⟨fun highest s h => exec_dispose_keep s h (by decide) rfl, fun a f v text s hlen => ?_⟩
  refine ⟨_, _, execEncode_eq a f 2#8 v text s hlen, execEncode_eq a f 0#8 v text s hlen, ?_⟩
  have hv : validate a f 2#8 = validate a f 0#8 := validate_congr_policy rfl a f
  have hd : disposedSlots ⟨a, f, 2#8, v, text⟩ = disposedSlots ⟨a, f, 0#8, v, text⟩ := by
    rw [disposedSlots_eq, disposedSlots_eq]
    exact disposeSlots_congr_policy _ (by decide) (by decide)
  exact transactionOn_rsp_congr hv hd rfl _ _

/-- A message that reaches Batch 2 is disposed of alike under every policy (R128). -/
theorem disposedSlots_congr_policy_of_reached {a : BitVec 32} {text : List Byte}
    (h : 16 ≤ 2 * (a.toNat % 8) + (min text.length 40 + 4) / 5) (f q q' : BitVec 8) (v : Bool) :
    disposedSlots ⟨a, f, q, v, text⟩ = disposedSlots ⟨a, f, q', v, text⟩ := by
  have hreached : 16 ≤ highestSlot (addressSlot a) (messageCodewords (text.take 40)).length := by
    rw [highestSlot, addressSlot_eq, messageCodewords_take_length]
    omega
  rw [disposedSlots_eq, disposedSlots_eq, disposeSlots_reached _ hreached, disposeSlots_reached _ hreached]

/-- Settles O49: the slots and the count do not depend on the policy, and every legal policy is accepted. -/
theorem policyIsIdleOnceBatchTwoIsReached : Obligations.PolicyIsIdleOnceBatchTwoIsReached := by
  intro a f q v text s hlen h1 hmax hf hq hreach
  have hlegal : legalPolicy q = legalPolicy 0#8 := (legalPolicy_iff q).mpr hq
  refine ⟨_, _, exec_encode_ok s hlen (validate_ok h1 hmax hf hq),
    exec_encode_ok s hlen (validate_ok h1 hmax hf (by decide)), ?_, ?_⟩
  · simp only [disposedSlots_congr_policy_of_reached hreach f q 0#8 v]
  · rw [batchCountOf_ok, (disposedSlots_count a f q v text).mpr (.inl hreach)]

end Sys2Proof.Machine
end

section
/-! SUPPORT. ENCODE as the sequence of its unit operations (46_encode_transaction.md R145). -/

namespace Sys2Proof.Machine

/-- Issuing ASSEMBLE changes the slot array, the cursor and the highest slot (R119). -/
theorem exec_assemble (aslot : BitVec 4) (acw : Word) (mcw : List Word) (s : State) :
    exec (.assemble aslot acw mcw) s =
      .next { s with work :=
        { s.work with
          slots := assembleSlots aslot.toNat acw mcw
          cursor := aslot.toNat + 1 + mcw.length
          highest := highestSlot aslot.toNat mcw.length } } := rfl

/-- An address slot fits ASSEMBLE's operand (R92). -/
theorem ofNat4_addressSlot_toNat (a : BitVec 32) : (BitVec.ofNat 4 (addressSlot a)).toNat = addressSlot a := by
  rw [BitVec.toNat_ofNat, addressSlot_eq]; omega

/-- A highest slot fits DISPOSE's operand (R120). -/
theorem ofNat5_highestSlot_toNat (aslot m : Nat) :
    (BitVec.ofNat 5 (highestSlot aslot m)).toNat = highestSlot aslot m := by
  rw [BitVec.toNat_ofNat, highestSlot]; omega

/-- The characters that TRUNCATE lets through (R144). -/
theorem take_min_length (text : List Byte) : text.take (min text.length 40) = text.take 40 :=
  take_truncateLen text

section
variable {a : BitVec 32} {f q : BitVec 8} {v : Bool} {text : List Byte} (s : State)

/-- VALIDATE to INVERT executed in the order of R145, each fed with what the ones before left, end with the slot array
and the count of the transaction. -/
theorem units_run (hlen : text.length ≤ 255) (h1 : 1 ≤ a.toNat) (hmax : a.toNat ≤ 0x1FFFFF) (hf : f.toNat ∈ [0, 1, 3])
    (hq : q.toNat ≤ 2) :
    ∃ s1 s2 s3 s4 s5 s6 s7 : State,
      exec (.validate a f q) s = .next s1 ∧ s1.result = .verdict .ok ∧
      exec (.truncate (BitVec.ofNat 8 text.length)) s1 = .next s2 ∧
      exec (.addrcw a f) s2 = .next s3 ∧
      exec (.msgenc (text.take s3.work.n)) s3 = .next s4 ∧
      exec (.assemble (BitVec.ofNat 4 s4.work.aslot) s4.work.acw s4.work.mcw) s4 = .next s5 ∧
      exec (.dispose (BitVec.ofNat 5 s5.work.highest) q) s5 = .next s6 ∧
      exec (.invert v) s6 = .next s7 ∧
      s7.work.count = (disposedSlots ⟨a, f, q, v, text⟩).1 ∧
      s7.work.slots = invertSlots v (disposedSlots ⟨a, f, q, v, text⟩).2 := by
  have hlen8 : (BitVec.ofNat 8 text.length).toNat = text.length := ofNat8_length_toNat hlen
  have htext : text.take (min (BitVec.ofNat 8 text.length).toNat 40) = text.take 40 := by
    rw [hlen8, take_min_length]
  have h40 : (text.take (min (BitVec.ofNat 8 text.length).toNat 40)).length ≤ 40 := by
    rw [htext, List.length_take]; omega
  have hpolicy : ∀ h : BitVec 5, (decide (16 ≤ h.toNat) || legalPolicy q) = true := fun h => by
    rw [(legalPolicy_iff q).mpr hq, Bool.or_true]
  refine ⟨_, _, _, _, _, _, _, rfl, congrArg Result.verdict (validate_ok h1 hmax hf hq), exec_truncate _ _,
    exec_addrcw_validated h1 hmax hf _, exec_msgenc _ h40, exec_assemble _ _ _ _, exec_dispose _ (hpolicy _),
    exec_invert v _, ?_, ?_⟩
  · rw [disposedSlots_eq]
    dsimp only
    rw [htext, ofNat4_addressSlot_toNat, ofNat5_highestSlot_toNat]
  · rw [disposedSlots_eq]
    dsimp only
    rw [htext, ofNat4_addressSlot_toNat, ofNat5_highestSlot_toNat]

end

/-- A host's read of slot i of a batch in its byte view answers what SERIALIZE of its word answers (R36, R139). -/
theorem runPort_readBytes_slot {s : State} {b : BatchSel} {batch : Batch} (hb : batchOf s.rsp b = some batch) {i : Nat}
    (hi : i < 16) :
    runPort (.readBytes b (4 * i) 4) s = .next { s with result := .bytes (Machine.serialize batch[i]) } := by
  rw [runPort_readBytes_within hb (by omega), byteView_slot batch i hi]

/-- Settles O43: the units end with the transaction's slot array and count, whose halves ENCODE answers. -/
theorem encodeIsItsUnitsInOrder : Obligations.EncodeIsItsUnitsInOrder := by
  intro a f q v text s hmaxlen hlen h1 hmax hf hq
  obtain ⟨s1, s2, s3, s4, s5, s6, s7, e1, hok, e2, e3, e4, e5, e6, e7, hcount, hslots⟩ :=
    units_run (v := v) s hlen h1 hmax hf hq
  refine ⟨s1, s2, s3, s4, s5, s6, s7, _, e1, hok, e2, e3, e4, e5, e6, e7,
    exec_encode_ok s hmaxlen (validate_ok h1 hmax hf hq), firstBatch s7.work.slots, secondBatch s7.work.slots, ?_,
    fun i hi => ⟨firstBatch_getElem _ i hi, secondBatch_getElem _ i hi, _, _, exec_serialize _ s7, exec_serialize _ s7,
      ?_, ?_⟩⟩
  · rw [hcount, hslots]
  · rw [runPort_readBytes_slot rfl hi, firstBatch_getElem]
    simp only [hslots]
  · rw [runPort_readBytes_slot rfl hi, secondBatch_getElem]
    simp only [hslots]

end Sys2Proof.Machine
end

section
/-! SUPPORT. The rows of the input enumerations: writes of one field, and what a start that follows ends in
(10_state.md R16; 30_encoding.md R56, R57; 40_validator.md R72, R73; 45_postprocessor.md R136). -/

namespace Sys2Proof.Machine

/-- A response is an error exactly when VALIDATE answers it (R163). -/
theorem transactionOn_rsp_eq_err_iff {q : Request} {s : State} {k : ErrorKind} :
    (transactionOn q s).rsp = .err k ↔ validate q.address q.functionCode q.batch2Policy = .err k := by
  cases h : validate q.address q.functionCode q.batch2Policy with
  | ok => rw [transactionOn_ok s h]; exact ⟨fun h => (nomatch h), fun h => (nomatch h)⟩
  | err k' =>
    rw [transactionOn_err s h]
    exact ⟨fun h => by cases h; rfl, fun h => by cases h; rfl⟩

section
variable {t u : State} {a : BitVec 32} (hstart : runPort .start t = .next u) (ha : t.req.address = some a)
  (h1 : 1 ≤ a.toNat) (hmax : a.toNat ≤ 0x1FFFFF)
include hstart ha h1 hmax

/-- With a legal address a start ends in InvalidFunctionCode exactly for an illegal function code (R72). -/
theorem start_err_functionCode_iff {f : BitVec 8} (hf : t.req.functionCode = some f) :
    u.rsp = .err .invalidFunctionCode ↔ legalFunctionCode f = false := by
  obtain ⟨q, hq, rfl⟩ := startTransaction_next hstart
  obtain ⟨hqa, hqf, -⟩ := readRequest_eq_ok.mp hq
  obtain rfl : q.address = a := Option.some.inj (hqa.symm.trans ha)
  obtain rfl : q.functionCode = f := Option.some.inj (hqf.symm.trans hf)
  rw [transactionOn_rsp_eq_err_iff, validate_eq_invalidFunctionCode_iff]
  exact and_iff_right ((legalAddress_iff _).mpr ⟨h1, hmax⟩)

variable {f q : BitVec 8} (hf : t.req.functionCode = some f) (hlegal : f.toNat ∈ [0, 1, 3])
  (hq : t.req.batch2Policy = some q)
include hf hlegal hq

/-- With a legal address and function code a start runs a request on which VALIDATE looks at the policy last. -/
theorem start_legal :
    ∃ r : Request, u = transactionOn r t ∧ legalAddress r.address = true ∧ legalFunctionCode r.functionCode = true ∧
      r.batch2Policy = q := by
  obtain ⟨r, hr, rfl⟩ := startTransaction_next hstart
  obtain ⟨hra, hrf, hrq, -⟩ := readRequest_eq_ok.mp hr
  obtain rfl : r.address = a := Option.some.inj (hra.symm.trans ha)
  obtain rfl : r.functionCode = f := Option.some.inj (hrf.symm.trans hf)
  exact ⟨r, rfl, (legalAddress_iff _).mpr ⟨h1, hmax⟩, (legalFunctionCode_iff _).mpr hlegal,
    Option.some.inj (hrq.symm.trans hq)⟩

/-- It ends in InvalidBatch2Policy for an illegal policy (R73). -/
theorem start_err_policy (hillegal : legalPolicy q = false) : u.rsp = .err .invalidBatch2Policy := by
  obtain ⟨r, rfl, hra, hrf, rfl⟩ := start_legal hstart ha h1 hmax hf hlegal hq
  exact transactionOn_rsp_eq_err_iff.mpr (validate_eq_invalidBatch2Policy_iff.mpr ⟨hra, hrf, hillegal⟩)

/-- And in Ok for a legal one. -/
theorem start_ok_policy (hpolicy : legalPolicy q = true) : ∃ c b1 b2, u.rsp = .ok c b1 b2 := by
  obtain ⟨r, rfl, hra, hrf, rfl⟩ := start_legal hstart ha h1 hmax hf hlegal hq
  rw [transactionOn_ok t ((validate_ok_iff _ _ _).mpr ⟨hra, hrf, hpolicy⟩)]
  exact ⟨_, _, _, rfl⟩

end

/-- Settles O50: each row writes its value, and a start then ends in the error exactly for an illegal value. -/
theorem functionCodeRowsReachTheValidator : Obligations.FunctionCodeRowsReachTheValidator := by
  refine ⟨fun i x s hi => ?_, fun i s t u a ht hu ha h1 hmax => ⟨fun hi => ?_, fun hi => ?_⟩⟩
  · rcases hi with ⟨rfl, rfl⟩ | ⟨rfl, rfl⟩ | ⟨rfl, rfl⟩ | ⟨rfl, rfl⟩ | rfl <;> rfl
  · rcases hi with rfl | ⟨x, hx, rfl⟩ <;> cases ht <;>
      refine (start_err_functionCode_iff hu ha h1 hmax rfl).mpr ?_
    · rfl
    · rw [legalFunctionCode_eq_false_iff]
      simp only [List.mem_cons, List.not_mem_nil, or_false]
      omega
  · rcases hi with rfl | rfl | rfl <;> cases ht <;>
      exact fun h => Bool.noConfusion ((start_err_functionCode_iff hu ha h1 hmax rfl).mp h)

/-- Settles O51: each row writes its value, and a start then ends in the error for an illegal value and in Ok for a
legal one. -/
theorem policyRowsReachTheValidator : Obligations.PolicyRowsReachTheValidator := by
  refine ⟨fun i x s hi => ?_, fun i s t u a f ht hu ha h1 hmax hf hlegal => ⟨fun hi => ?_, fun hi => ?_⟩⟩
  · rcases hi with ⟨rfl, rfl⟩ | ⟨rfl, rfl⟩ | ⟨rfl, rfl⟩ | rfl <;> rfl
  · obtain ⟨x, hx, rfl⟩ := hi
    cases ht
    exact start_err_policy hu ha h1 hmax hf hlegal rfl (legalPolicy_eq_false_iff.mpr hx)
  · rcases hi with rfl | rfl | rfl <;> cases ht <;> exact start_ok_policy hu ha h1 hmax hf hlegal rfl rfl

/-- The request read after the host has written invertPhase is the one read before with that bit. -/
theorem readRequest_setInvertPhase {r : Req} {q : Request} {b : Bool}
    (h : readRequest { r with invertPhase := some b } = .ok q) (b' : Bool) :
    readRequest { r with invertPhase := some b' } = .ok { q with invertPhase := b' } := by
  obtain ⟨ha, hf, hq, -, hrest⟩ := readRequest_eq_ok.mp h
  exact readRequest_eq_ok.mpr ⟨ha, hf, hq, rfl, hrest⟩

theorem readRequest_invertPhase {r : Req} {q : Request} {b : Bool}
    (h : readRequest { r with invertPhase := some b } = .ok q) : q.invertPhase = b := by
  obtain ⟨-, -, -, hi, -⟩ := readRequest_eq_ok.mp h
  exact (Option.some.inj hi).symm

/-- Settles O52: the two starts run requests that differ in invertPhase only. -/
theorem invertPhaseRowsSelectTheInversion : Obligations.InvertPhaseRowsSelectTheInversion := by
  refine fun s => ⟨rfl, rfl, fun t u c b1 b2 ht hu hrsp => ?_⟩
  obtain ⟨⟨a, f, q, v, text⟩, hread, rfl⟩ := startTransaction_next ht
  obtain rfl : v = false := readRequest_invertPhase hread
  obtain ⟨q', hread', rfl⟩ := startTransaction_next hu
  obtain rfl : q' = ⟨a, f, q, true, text⟩ := Except.ok.inj (hread'.symm.trans (readRequest_setInvertPhase hread true))
  obtain ⟨k, he, -⟩ | ⟨c', slots, h0, h1⟩ := transactionOn_rsp_without_and_with_invertPhase a f q text
    { s with req := { s.req with invertPhase := some false } } { s with req := { s.req with invertPhase := some true } }
  · rw [he] at hrsp; cases hrsp
  · rw [h0] at hrsp
    cases hrsp
    refine ⟨_, _, h1, fun i hi => ⟨?_, ?_⟩⟩
    · rw [firstBatch_getElem, firstBatch_getElem, invertSlots_true_getElem]
    · rw [secondBatch_getElem, secondBatch_getElem, invertSlots_true_getElem]

end Sys2Proof.Machine
end

section
/-! SUPPORT. The rows that are read: statuses and counts, the symbol and nibble tables, the codewords before and after
inversion (10_state.md R18, R19; 30_encoding.md R46 to R55). -/

namespace Sys2Proof.Machine

/-- Settles O53: each row's answer by its meaning, its bytes by its place, and a host's read by the tag of RSP. -/
theorem statusAndCountRowsReadTheirValue : Obligations.StatusAndCountRowsReadTheirValue := by
  refine ⟨fun i v s hi => ?_, fun i c s hi => ?_⟩
  · rcases hi with ⟨rfl, rfl⟩ | ⟨rfl, rfl⟩ | ⟨rfl, rfl⟩ | ⟨rfl, rfl⟩ <;>
      exact ⟨rfl, decode_st2 [] _, fun h => runPort_readStatus h⟩
  · rcases hi with ⟨rfl, rfl⟩ | ⟨rfl, rfl⟩ <;>
      exact ⟨rfl, decode_bc2 [] _, fun h => runPort_readBatchCount h⟩

/-- The row of a character answers its symbol value, its nibble and the codeword it makes alone (R55). -/
theorem exec_symbolRow (c : Byte) (s : State) :
    exec (symbolRow c) s =
      .next { s with result := .character (charnib c) (rev4 (charnib c)) (messageCodeword [c]) } := by
  by_cases h : c ∈ listedCodes
  · simp only [listedCodes, List.mem_cons, List.not_mem_nil, or_false] at h
    rcases h with rfl | rfl | rfl | rfl | rfl | rfl | rfl | rfl | rfl | rfl | rfl | rfl | rfl | rfl | rfl | rfl <;> rfl
  · rw [symbolRow_of_not_listed h]; rfl

/-- A single character's codeword depends on its symbol value only (R104). -/
theorem messageCodeword_singleton_congr {c c' : Byte} (h : charnib c = charnib c') :
    messageCodeword [c] = messageCodeword [c'] := by
  have hnibble : groupNibble [c] = groupNibble [c'] := by
    funext j
    cases j with
    | zero => exact congrArg rev4 h
    | succ j => rfl
  rw [messageCodeword, groupOperand, groupPayload, hnibble]
  rfl

/-- Settles O54: each listed row is the row of a code, whose three values are computed; a code that is not listed has
the symbol value of `*`. -/
theorem symbolRowsGiveTheTable : Obligations.SymbolRowsGiveTheTable := by
  refine fun s => ⟨fun e he => ?_, fun c hc => ?_⟩
  · have htable : ∃ c ∈ listedCodes, e.1 = symbolRow c ∧ e.2.1 = charnib c ∧ e.2.2.1 = rev4 (charnib c) ∧
        e.2.2.2 = messageCodeword [c] := by
      revert e
      decide +kernel
    obtain ⟨c, -, hrow, hsymbol, hnibble, hword⟩ := htable
    rw [hrow, exec_symbolRow, hsymbol, hnibble, hword]
  · have hstar : charnib c = charnib 0x2A#8 := charnib_default hc
    have hword : messageCodeword [0x2A#8] = 0xA8000570#32 := by decide +kernel
    rw [← symbolRow_of_not_listed hc, exec_symbolRow, messageCodeword_singleton_congr hstar, hword, hstar]
    rfl

/-- The row of a nibble answers its symbol value and the character that has it (R53, R55). -/
theorem exec_nibbleRow (x : BitVec 4) (s : State) :
    exec (nibbleRow x) s = .next { s with result := .nibbleRead (rev4 x) (symbolCharacter (rev4 x)) } := by
  have hx : x ∈ [0x0#4, 0x8#4, 0x4#4, 0xC#4, 0x2#4, 0xA#4, 0x6#4, 0xE#4, 0x1#4, 0x9#4, 0x5#4, 0xD#4, 0x3#4, 0xB#4,
      0x7#4, 0xF#4] := by
    revert x; decide
  simp only [List.mem_cons, List.not_mem_nil, or_false] at hx
  rcases hx with rfl | rfl | rfl | rfl | rfl | rfl | rfl | rfl | rfl | rfl | rfl | rfl | rfl | rfl | rfl | rfl <;> rfl

/-- Settles O55: each row is the row of a nibble, whose symbol value is REV4 of it and whose character's code has that
symbol value again. -/
theorem nibbleRowsInvertTheTable : Obligations.NibbleRowsInvertTheTable := by
  intro s e he
  have htable : e.1 = nibbleRow e.2.1 ∧ e.2.2.1 = rev4 e.2.1 ∧ e.2.2.2 = symbolCharacter (rev4 e.2.1) ∧
      charnib (symbolCharacter (rev4 e.2.1)) = rev4 e.2.1 := by
    revert e
    decide +kernel
  obtain ⟨hrow, hsymbol, hcharacter, hcharnib⟩ := htable
  refine ⟨?_, ?_, ?_, messageCodeword [e.2.2.2], ?_⟩
  · rw [hrow, exec_nibbleRow, hsymbol, hcharacter]
  · rw [hrow, decode_nib4]
  · rw [exec_rev4, hsymbol]
  · rw [exec_symbolRow, hcharacter, hcharnib, rev4_rev4, hsymbol]

/-- The payload of an address codeword, unless it is the idle codeword (R47, R95). -/
theorem payloadOf_addrBits (a : BitVec 18) (f : BitVec 2) (c : BitVec 10) (p : BitVec 1) :
    payloadOf (addrBits 0#1 a f c p) = if addrBits 0#1 a f c p = Config.idle then .idle else .address a f := by
  obtain ⟨ha, hf, -, -, ht⟩ := addrBits_fields 0#1 a f c p
  rw [payloadOf, ht, ha, hf]
  rfl

/-- The payload of a message codeword; the idle codeword has the other type flag (R48). -/
theorem payloadOf_msgBits (n0 n1 n2 n3 n4 : BitVec 4) (c : BitVec 10) (p : BitVec 1) :
    payloadOf (msgBits 1#1 n0 n1 n2 n3 n4 c p) = .message n0 n1 n2 n3 n4 := by
  obtain ⟨h0, h1, h2, h3, h4, -, -, ht⟩ := msgBits_fields 1#1 n0 n1 n2 n3 n4 c p
  have hidle : msgBits 1#1 n0 n1 n2 n3 n4 c p ≠ Config.idle := fun h => by rw [h] at ht; exact absurd ht (by decide)
  rw [payloadOf, if_neg hidle, ht, h0, h1, h2, h3, h4]
  rfl

/-- A word before inversion is read as it stands (R46). -/
theorem viewOf_false (w : Word) :
    viewOf false w = ⟨false, w, payloadOf w, w.extractLsb' 1 10, w.extractLsb' 0 1⟩ := rfl

/-- A word after inversion is read through its complement (R50). -/
theorem viewOf_true (w : Word) :
    viewOf true w = ⟨true, ~~~w, payloadOf (~~~w), (~~~w).extractLsb' 1 10, (~~~w).extractLsb' 0 1⟩ := by
  rw [← BitVec.xor_allOnes]
  rfl

theorem addrBits_not (t : BitVec 1) (a : BitVec 18) (f : BitVec 2) (c : BitVec 10) (p : BitVec 1) :
    ~~~addrBits t a f c p = addrBits (~~~t) (~~~a) (~~~f) (~~~c) (~~~p) :=
  BitVec.eq_of_getLsbD_eq fun i hi => by grind [addrBits_getLsbD]

theorem msgBits_not (t : BitVec 1) (n0 n1 n2 n3 n4 : BitVec 4) (c : BitVec 10) (p : BitVec 1) :
    ~~~msgBits t n0 n1 n2 n3 n4 c p =
      msgBits (~~~t) (~~~n0) (~~~n1) (~~~n2) (~~~n3) (~~~n4) (~~~c) (~~~p) :=
  BitVec.eq_of_getLsbD_eq fun i hi => by grind [msgBits_getLsbD]

/-- Settles O56: the word of the fields, its fields read back, and its view. -/
theorem codewordRowsReadTheirFields : Obligations.CodewordRowsReadTheirFields := by
  refine ⟨fun a f c p s => ?_, fun n0 n1 n2 n3 n4 c p s => ?_, fun s => rfl⟩
  · obtain ⟨ha, hf, hc, hp, ht⟩ := addrBits_fields 0#1 a f c p
    refine ⟨addrBits 0#1 a f c p, ht, ha, hf, hc, hp, ?_⟩
    rw [exec, execCwAddr, readCodeword, viewOf_false, payloadOf_addrBits, hc, hp]
    rfl
  · obtain ⟨h0, h1, h2, h3, h4, hc, hp, ht⟩ := msgBits_fields 1#1 n0 n1 n2 n3 n4 c p
    refine ⟨msgBits 1#1 n0 n1 n2 n3 n4 c p, ht, h0, h1, h2, h3, h4, hc, hp, ?_⟩
    rw [exec, execCwMsg, readCodeword, viewOf_false, payloadOf_msgBits, hc, hp]
    rfl

/-- Settles O57: the complement of a word with fields is the word with the complemented fields and type flag. -/
theorem invertedCodewordRowsReadTheComplement : Obligations.InvertedCodewordRowsReadTheComplement := by
  refine ⟨fun a f c p s => ?_, fun n0 n1 n2 n3 n4 c p s => ?_, fun s => rfl⟩
  · obtain ⟨ha, hf, hc, hp, ht⟩ := addrBits_fields 0#1 (~~~a) (~~~f) (~~~c) (~~~p)
    have hnot : ~~~addrBits 1#1 a f c p = addrBits 0#1 (~~~a) (~~~f) (~~~c) (~~~p) := addrBits_not 1#1 a f c p
    refine ⟨addrBits 0#1 (~~~a) (~~~f) (~~~c) (~~~p), ht, ha, hf, hc, hp, ?_⟩
    rw [exec, execCwAddrInverted, readCodeword, viewOf_true, hnot, payloadOf_addrBits, hc, hp]
    rfl
  · obtain ⟨h0, h1, h2, h3, h4, hc, hp, ht⟩ := msgBits_fields 1#1 (~~~n0) (~~~n1) (~~~n2) (~~~n3) (~~~n4) (~~~c) (~~~p)
    have hnot : ~~~msgBits 0#1 n0 n1 n2 n3 n4 c p = msgBits 1#1 (~~~n0) (~~~n1) (~~~n2) (~~~n3) (~~~n4) (~~~c) (~~~p) :=
      msgBits_not 0#1 n0 n1 n2 n3 n4 c p
    refine ⟨_, ht, h0, h1, h2, h3, h4, hc, hp, ?_⟩
    rw [exec, execCwMsgInverted, readCodeword, viewOf_true, hnot, payloadOf_msgBits, hc, hp]
    rfl

end Sys2Proof.Machine
end
